-- ==== Sys2Proof/Word.lean ====
section
/-! DEFINITION. The machine's one word: an 8-bit byte (00_scope.md R4, R9). -/

namespace Sys2Proof

/-- A register, an address, an opcode or operand byte, a memory byte: 8 bits, unsigned (R9). -/
abbrev Byte := BitVec 8

end Sys2Proof
end

