-- ==== Sys2Proof/Config.lean ====
section
/-! DEFINITION. The implementation parameters of 00_scope.md R4. Every one is fixed by the spec ("the model takes
none as an argument"), and the spec has no draw and no free value (93_implementation_defined.md Part 1). `MEMSIZE` is 256: an address is
at most 255, the bound that the operations of Machine/Ops.lean check. -/

namespace Sys2Proof

/-- A general register, R0 to R7: `NREG` is 8. -/
abbrev RegIndex := Fin 8

namespace Config

/-- `SP_INDEX`: the register used as stack pointer. -/
abbrev spIndex : RegIndex := 7

/-- `SP_RESET`: the stack pointer after reset. -/
abbrev spReset : Byte := 0xF4#8

/-- `PC_RESET`: the entry point. -/
abbrev pcReset : Byte := 0x00#8

/-- What a memory byte that nothing has written reads as: the reset value of 10_state.md R34, R35. -/
abbrev memReset : Byte := 0x00#8

end Config

end Sys2Proof
end

