-- ==== Sys2Proof/Syntax.lean ====
section
/-! DEFINITION. The instructions: one constructor per row of spec/opcode_table.json (30_encoding.md R65), in the
table's order. An operand is the WHOLE operand byte as fetched: the spec does not mask a register index (R63), so a
byte of 8 or more is kept here, decoded and run, and raises RegisterIndexFault when the instruction runs. -/

namespace Sys2Proof

/-- The 21 mapped instructions. `a` and `b` are register operand bytes, `v` an immediate byte. -/
inductive Instr where
  | hlt
  | ret
  | psh (a : Byte)
  | pop (a : Byte)
  | prn (a : Byte)
  | call (a : Byte)
  | jmp (a : Byte)
  | jeq (a : Byte)
  | jne (a : Byte)
  | inc (a : Byte)
  | dec (a : Byte)
  | ldi (a v : Byte)
  | add (a b : Byte)
  | sub (a b : Byte)
  | mul (a b : Byte)
  | div (a b : Byte)
  | cmp (a b : Byte)
  | and (a b : Byte)
  | or (a b : Byte)
  | xor (a b : Byte)
  | shl (a b : Byte)
  deriving DecidableEq, Repr

/-- The four formats of 30_encoding.md R62. -/
inductive Format where
  /-- no operand, one byte -/
  | n
  /-- one register, two bytes -/
  | r
  /-- two registers, three bytes -/
  | rr
  /-- a register and an immediate, three bytes -/
  | ri
  deriving DecidableEq, Repr

/-- The instruction's mnemonic, as the opcode table spells it. -/
def Instr.mnemonic : Instr → String
  | .hlt => "HLT"
  | .ret => "RET"
  | .psh _ => "PSH"
  | .pop _ => "POP"
  | .prn _ => "PRN"
  | .call _ => "CALL"
  | .jmp _ => "JMP"
  | .jeq _ => "JEQ"
  | .jne _ => "JNE"
  | .inc _ => "INC"
  | .dec _ => "DEC"
  | .ldi _ _ => "LDI"
  | .add _ _ => "ADD"
  | .sub _ _ => "SUB"
  | .mul _ _ => "MUL"
  | .div _ _ => "DIV"
  | .cmp _ _ => "CMP"
  | .and _ _ => "AND"
  | .or _ _ => "OR"
  | .xor _ _ => "XOR"
  | .shl _ _ => "SHL"

/-- The instruction's format (30_encoding.md R62). -/
def Instr.format : Instr → Format
  | .hlt | .ret => .n
  | .psh _ | .pop _ | .prn _ | .call _ | .jmp _ | .jeq _ | .jne _ | .inc _ | .dec _ => .r
  | .ldi _ _ => .ri
  | .add _ _ | .sub _ _ | .mul _ _ | .div _ _ | .cmp _ _ | .and _ _ | .or _ _ | .xor _ _ | .shl _ _ => .rr

/-- The operand bytes of the instruction, in the order they stand in memory (R62). -/
def Instr.operands : Instr → List Byte
  | .hlt | .ret => []
  | .psh a | .pop a | .prn a | .call a | .jmp a | .jeq a | .jne a | .inc a | .dec a => [a]
  | .ldi a v => [a, v]
  | .add a b | .sub a b | .mul a b | .div a b | .cmp a b | .and a b | .or a b | .xor a b | .shl a b => [a, b]

/-- The operand bytes the instruction uses as register indices, in the order they are checked (R63): LDI's second
operand is an immediate and is not among them. -/
def Instr.regOperands : Instr → List Byte
  | .ldi a _ => [a]
  | i => i.operands

/-- A register operand in assembly, `R0` to `R7` (R71); none for a byte that names no register. -/
def regName (b : Byte) : Option String :=
  if b.toNat ≤ 7 then some ("R" ++ toString b.toNat) else none

/-- The instruction in the notation of 30_encoding.md R71, its immediate as a decimal numeral. It is none for a
register byte above 7: "To write an instruction with an out-of-range register byte the spec writes the bytes." -/
def Instr.assembly (i : Instr) : Option String :=
  match i.format, i.operands with
  | .r, [a] => (regName a).map fun ra => i.mnemonic ++ " " ++ ra
  | .rr, [a, b] => (regName a).bind fun ra => (regName b).map fun rb => i.mnemonic ++ " " ++ ra ++ "," ++ rb
  | .ri, [a, v] => (regName a).map fun ra => i.mnemonic ++ " " ++ ra ++ "," ++ toString v.toNat
  | _, _ => some i.mnemonic

end Sys2Proof
end

