-- ==== Sys2Proof/WellFormed.lean ====
section
/-! DEFINITION. When an instruction is well formed. The only reserved operand values are register indices above 7
(30_encoding.md R68); such an instruction still has an encoding and a meaning (it raises RegisterIndexFault, R63). -/

namespace Sys2Proof

/-- A register operand byte is 0 to 7 (R63). -/
def regOperandOk (b : Byte) : Bool := decide (b.toNat < 8)

/-- Every byte the instruction uses as a register index names a register. -/
def Instr.wellFormed (i : Instr) : Bool := i.regOperands.all regOperandOk

end Sys2Proof
end

