-- ==== Sys2Proof/Decode.lean ====
section
/-! DEFINITION. Fields of the opcode byte, the decoder, and after it the encoder (30_encoding.md). -/

namespace Sys2Proof

/-- `AA = ir[7:6]`: the operand count of the fetched byte, 0 to 3 (R61, R83). It is read from every byte, mapped or not. -/
def operandCount (ir : Byte) : Nat := (ir.extractLsb' 6 2).toNat

/-- `C = ir[4]`: the "sets program counter" bit (R61, R83). It steers nothing in this model, since each meaning carries
its own pc update (R30, R86), and it is ignored for an unmapped byte (R70). -/
def setsPc (ir : Byte) : Bool := ir.getLsbD 4

/-- Why a byte sequence is not an instruction. -/
inductive DecodeReject where
  /-- there is no byte -/
  | noBytes
  /-- the first byte is none of the 21 mapped values (R66) -/
  | unmapped (ir : Byte)
  /-- the first byte is mapped and fewer operand bytes follow than it needs (R60) -/
  | truncated (ir : Byte)
  deriving DecidableEq, Repr

/-- A row of the opcode table of 30_encoding.md R65. -/
structure OpRow where
  /-- the whole opcode byte: the instruction's identity (R61) -/
  opcode : Byte
  mnemonic : String
  format : Format
  /-- the instruction made of the two prefetched bytes; a format that is shorter ignores those it does not use (R62) -/
  build : Byte → Byte → Instr

/-- The 21 rows of R65, in the order of the byte value. -/
def opTable : List OpRow :=
  [⟨0x01#8, "HLT", .n, fun _ _ => .hlt⟩,
   ⟨0x11#8, "RET", .n, fun _ _ => .ret⟩,
   ⟨0x45#8, "PSH", .r, fun opa _ => .psh opa⟩,
   ⟨0x46#8, "POP", .r, fun opa _ => .pop opa⟩,
   ⟨0x47#8, "PRN", .r, fun opa _ => .prn opa⟩,
   ⟨0x50#8, "CALL", .r, fun opa _ => .call opa⟩,
   ⟨0x54#8, "JMP", .r, fun opa _ => .jmp opa⟩,
   ⟨0x55#8, "JEQ", .r, fun opa _ => .jeq opa⟩,
   ⟨0x56#8, "JNE", .r, fun opa _ => .jne opa⟩,
   ⟨0x65#8, "INC", .r, fun opa _ => .inc opa⟩,
   ⟨0x66#8, "DEC", .r, fun opa _ => .dec opa⟩,
   ⟨0x82#8, "LDI", .ri, fun opa opb => .ldi opa opb⟩,
   ⟨0xA0#8, "ADD", .rr, fun opa opb => .add opa opb⟩,
   ⟨0xA1#8, "SUB", .rr, fun opa opb => .sub opa opb⟩,
   ⟨0xA2#8, "MUL", .rr, fun opa opb => .mul opa opb⟩,
   ⟨0xA3#8, "DIV", .rr, fun opa opb => .div opa opb⟩,
   ⟨0xA7#8, "CMP", .rr, fun opa opb => .cmp opa opb⟩,
   ⟨0xA8#8, "AND", .rr, fun opa opb => .and opa opb⟩,
   ⟨0xAA#8, "OR", .rr, fun opa opb => .or opa opb⟩,
   ⟨0xAB#8, "XOR", .rr, fun opa opb => .xor opa opb⟩,
   ⟨0xAC#8, "SHL", .rr, fun opa opb => .shl opa opb⟩]

/-- The 21 mapped opcode bytes; the other 235 byte values are unmapped (R66). -/
def mappedOpcodes : List Byte := opTable.map OpRow.opcode

/-- Decode of the three bytes a Step has fetched (40_instruction_cycle.md R83, R84): the instruction is selected by
comparing all 8 bits of `ir` with the 21 values of R65. None for an unmapped byte. -/
def decodeBytes (ir opa opb : Byte) : Option Instr :=
  (opTable.find? fun r => r.opcode == ir).map fun r => r.build opa opb

/-- Decode of any byte sequence: the instruction it begins with and the bytes after it, or a rejection by name.
The operand bytes are counted by `ir[7:6]` (R60). -/
def decode : List Byte → Except DecodeReject (Instr × List Byte)
  | [] => .error .noBytes
  | ir :: rest =>
    match decodeBytes ir (rest.getD 0 0) (rest.getD 1 0) with
    | none => .error (.unmapped ir)
    | some i =>
      if rest.length < operandCount ir then .error (.truncated ir)
      else .ok (i, rest.drop (operandCount ir))

/-- The opcode byte of an instruction: the first column of the table of 30_encoding.md R65. -/
def Instr.opcode : Instr → Byte
  | .hlt => 0x01#8
  | .ret => 0x11#8
  | .psh _ => 0x45#8
  | .pop _ => 0x46#8
  | .prn _ => 0x47#8
  | .call _ => 0x50#8
  | .jmp _ => 0x54#8
  | .jeq _ => 0x55#8
  | .jne _ => 0x56#8
  | .inc _ => 0x65#8
  | .dec _ => 0x66#8
  | .ldi _ _ => 0x82#8
  | .add _ _ => 0xA0#8
  | .sub _ _ => 0xA1#8
  | .mul _ _ => 0xA2#8
  | .div _ _ => 0xA3#8
  | .cmp _ _ => 0xA7#8
  | .and _ _ => 0xA8#8
  | .or _ _ => 0xAA#8
  | .xor _ _ => 0xAB#8
  | .shl _ _ => 0xAC#8

/-- The bytes of an instruction at ascending addresses: the opcode byte, then the operand bytes (R60, R62). -/
def encode (i : Instr) : List Byte := i.opcode :: i.operands

/-- The three bytes at ascending addresses of an instruction given as `nbits` bits of a number whose least significant
byte is the first byte; the bits above `nbits` are zero. -/
def tableBytes (nbits w : Nat) : List Byte :=
  let v := w % 2 ^ nbits
  [BitVec.ofNat 8 v, BitVec.ofNat 8 (v / 256), BitVec.ofNat 8 (v / 65536)]

/-- The instruction the decoder reads from the bits `w` as spec/opcode_table.json numbers them. -/
def decodeTableWord (nbits w : Nat) : Option Instr :=
  match decode (tableBytes nbits w) with
  | .ok (i, _) => some i
  | .error _ => none

end Sys2Proof
end

