-- ==== Sys2Proof/Machine/State.lean ====
section
/-! DEFINITION. The machine's state (10_state.md), the reasons a step can stop, and the state after reset. -/

namespace Sys2Proof.Machine

/-- `run_state` (10_state.md R28). -/
inductive RunState where
  | running
  | halted
  | faulted
  deriving DecidableEq, Repr

/-- `fault_cause` (60_exceptions.md R151), by name; `FaultCause.code` is its number. -/
inductive FaultCause where
  /-- no fault: the reset value -/
  | none
  /-- AddressFault (R152) -/
  | address
  /-- RegisterIndexFault (R153) -/
  | registerIndex
  /-- DivideByZero (R154) -/
  | divideByZero
  /-- AluOpFault (R155): raised by no program -/
  | aluOp
  deriving DecidableEq, Repr

/-- One event of the `OUT` interface (00_scope.md R6). -/
inductive OutEvent where
  /-- PRN printed the unsigned 8-bit value `v` -/
  | print (v : Byte)
  /-- an unmapped opcode byte `op` was fetched from address `addr` -/
  | diag (op addr : Byte)
  deriving DecidableEq, Repr

/-- The 256 bytes of memory as pairs (address, byte). In canonical form (`Memory.wf`) the addresses rise strictly,
none is above 255, and no listed byte is the reset value; an unlisted address reads as `Config.memReset`, the spec's
own reset contents (10_state.md R34). -/
abbrev Memory := List Host.Cell

/-- The canonical form of memory. -/
abbrev Memory.wf (m : Memory) : Prop :=
  m.Pairwise (fun c d => c.1 < d.1) ∧ ∀ c ∈ m, c.1 ≤ 255 ∧ c.2 ≠ Config.memReset

/-- The complete architectural state of 10_state.md R20, with the `OUT` events so far (R32). -/
structure State where
  /-- `x[0]` to `x[7]`; `x[7]` is the stack pointer (R21, R22) -/
  regs : Vector Byte 8
  /-- the program counter (R24) -/
  pc : Byte
  /-- the flag register `0b00000LGE` (R26) -/
  fl : Byte
  /-- `run_state` (R28) -/
  runState : RunState
  /-- `fault_cause` (R29) -/
  faultCause : FaultCause
  /-- `fault_info`, one integer (R29); it can exceed a byte, since an address fault reports 256 or 257 (R151) -/
  faultInfo : Nat
  /-- `mem[0]` to `mem[255]` (R31) -/
  mem : Memory
  /-- the `OUT` events so far, oldest first (R32) -/
  out : List OutEvent
  deriving DecidableEq, Repr

/-- Why `step` answers no next state: HALTED and FAULTED states have no successor (00_scope.md R13). The spec's own fatal
faults are not here: a `raise` enters FAULTED, which is a next state (60_exceptions.md R159). -/
inductive Fault where
  /-- `step` in HALTED: "A Step is defined only when `run_state = RUNNING`" (R80). Raised by `step` alone. Safe. -/
  | haltedNoStep
  /-- `step` in FAULTED: "No Step is defined in FAULTED" (R160). Raised by `step` alone. Safe. -/
  | faultedNoStep
  deriving DecidableEq, Repr

/-- Why an operation has no meaning. -/
inductive Refusal where
  /-- an instruction without a meaning, by its mnemonic. Raised by a refused arm of `exec` alone; there is none. Safe. -/
  | notModelled (mnemonic : String)
  /-- LOAD of an image of more than 256 bytes: "`LOAD` with `n > 256` is refused by the host" (70_reset_and_hazards.md
  R183). Raised by `hostLoad` alone, never by a step. Safe. -/
  | imageTooLong
  deriving DecidableEq, Repr

/-- The machine after RESET (10_state.md R34, 70_reset_and_hazards.md R180). -/
def State.reset : State where
  regs := #v[0x00#8, 0x00#8, 0x00#8, 0x00#8, 0x00#8, 0x00#8, 0x00#8, Config.spReset]
  pc := Config.pcReset
  fl := 0x00#8
  runState := .running
  faultCause := .none
  faultInfo := 0
  mem := []
  out := []

end Sys2Proof.Machine
end

