-- ==== Sys2Proof/Machine/Ops.lean ====
section
/-! DEFINITION. The named operations over memory, registers, the program counter and the output: the pseudocode
primitives of 00_scope.md R10, taking a fatal fault (`State.raise`) among them. There is no return from a fault to
write beside it: no handler exists, and only RESET leaves FAULTED (60_exceptions.md R160). -/

namespace Sys2Proof.Machine

/-! ### Memory -/

/-- The byte at an address; an unlisted address holds its reset value. -/
def Memory.read : Memory → Nat → Byte
  | [], _ => Config.memReset
  | c :: m, addr => if c.1 = addr then c.2 else Memory.read m addr

/-- The memory without any entry for `addr`: that address holds its reset value. -/
def Memory.erase (m : Memory) (addr : Nat) : Memory := m.filter fun c => c.1 ≠ addr

/-- Put an entry in its place by address. -/
def Memory.insert (addr : Nat) (v : Byte) : Memory → Memory
  | [] => [(addr, v)]
  | c :: m => if addr < c.1 then (addr, v) :: c :: m else c :: Memory.insert addr v m

/-- The memory after `mem[addr] <- v`, in canonical form. -/
def Memory.write (m : Memory) (addr : Nat) (v : Byte) : Memory :=
  if v = Config.memReset then m.erase addr else (m.erase addr).insert addr v

/-- Bytes at ascending addresses from `addr`; those past the top of memory go nowhere. -/
def Memory.place (m : Memory) (addr : Nat) : List Byte → Memory
  | [] => m
  | b :: bs => Memory.place (if addr ≤ 255 then m.write addr b else m) (addr + 1) bs

/-- `MemRead(addr, 1)` (20_memory.md R41): the byte, or the offending address when it is above 255. -/
def State.memRead (s : State) (addr : Nat) : Except Nat Byte :=
  if addr ≤ 255 then .ok (s.mem.read addr) else .error addr

/-- `MemWrite(addr, 1, v)` (20_memory.md R42): the state after it, or the offending address when it is above 255. -/
def State.memWrite (s : State) (addr : Nat) (v : Byte) : Except Nat State :=
  if addr ≤ 255 then .ok { s with mem := s.mem.write addr v } else .error addr

/-- `MemRead` at an 8-bit address, which never faults (R43). -/
def State.loadByte (s : State) (a : Byte) : Byte := s.mem.read a.toNat

/-- `MemWrite` at an 8-bit address, which never faults (R42). -/
def State.storeByte (s : State) (a v : Byte) : State := { s with mem := s.mem.write a.toNat v }

/-! ### Registers, program counter, flags, run state, output -/

/-- `x[i]` (10_state.md R21). -/
def State.readReg (s : State) (i : RegIndex) : Byte := s.regs[i]

/-- `x[i] <- v` (R23). A result computed over the integers is reduced modulo 256 by the operation that makes it a
byte. -/
def State.writeReg (s : State) (i : RegIndex) (v : Byte) : State := { s with regs := s.regs.set i v }

/-- `SP`, another name for `x[7]` (R22). -/
def State.sp (s : State) : Byte := s.readReg Config.spIndex

/-- `pc <- target` (R24, R25). -/
def State.setPc (s : State) (target : Byte) : State := { s with pc := target }

/-- `FL <- v`: all of the flag register (R26). -/
def State.setFl (s : State) (v : Byte) : State := { s with fl := v }

/-- `run_state <- HALTED` (43_jumps_halt.md R138). -/
def State.halt (s : State) : State := { s with runState := .halted }

/-- Append one event to `OUT` (00_scope.md R6). -/
def State.emit (s : State) (e : OutEvent) : State := { s with out := s.out ++ [e] }

/-! ### Faults and the program counter's advance -/

/-- `raise F(info)` (60_exceptions.md R159): enter FAULTED and record the cause; `pc` and all else stay. -/
def State.raise (s : State) (cause : FaultCause) (info : Nat) : State :=
  { s with runState := .faulted, faultCause := cause, faultInfo := info }

/-- The cause code of 60_exceptions.md R151. -/
def FaultCause.code : FaultCause → Nat
  | .none => 0
  | .address => 1
  | .registerIndex => 2
  | .divideByZero => 3
  | .aluOp => 4

/-- `Advance(k)` (40_instruction_cycle.md R85): the sum is an integer and never wraps. -/
def State.advance (s : State) (k : Nat) : State :=
  if s.pc.toNat + k ≤ 255 then s.setPc (BitVec.ofNat 8 (s.pc.toNat + k))
  else s.raise .address (s.pc.toNat + k)

/-! ### Stack (42_stack.md) -/

/-- Where a push stores: `SP` after the decrement, modulo 256 (R120). -/
def State.pushAddr (s : State) : Byte := s.sp - 1#8

/-- `push(v)` (R120). -/
def State.push (s : State) (v : Byte) : State := (s.writeReg Config.spIndex s.pushAddr).storeByte s.pushAddr v

/-- The byte `pop()` returns (R121): the one at the current `SP`. -/
def State.popValue (s : State) : Byte := s.loadByte s.sp

/-- The state `pop()` leaves (R121): `SP` incremented modulo 256, memory as it was. -/
def State.popState (s : State) : State := s.writeReg Config.spIndex (s.sp + 1#8)

end Sys2Proof.Machine
end

