-- ==== Sys2Proof/Machine/Cycle.lean ====
section
/-! DEFINITION. The fetch part of the instruction cycle and the skip of an unmapped byte (40_instruction_cycle.md). -/

namespace Sys2Proof.Machine

/-- What a Step has fetched: the opcode byte and the two prefetched operand bytes (R81, R82). They are transients of one
Step and no part of the state. -/
structure Fetched where
  ir : Byte
  opa : Byte
  opb : Byte
  deriving DecidableEq, Repr

/-- S1 and S2 (R80 to R82): three reads in order, whatever the opcode, at integer addresses that do not wrap; the first
address above 255 is the error. -/
def fetch (s : State) : Except Nat Fetched :=
  match s.memRead s.pc.toNat with
  | .error addr => .error addr
  | .ok ir =>
    match s.memRead (s.pc.toNat + 1) with
    | .error addr => .error addr
    | .ok opa =>
      match s.memRead (s.pc.toNat + 2) with
      | .error addr => .error addr
      | .ok opb => .ok ⟨ir, opa, opb⟩

/-- S3 and the selection of S4 (R83, R84). -/
def selectInstr (f : Fetched) : Option Instr := decodeBytes f.ir f.opa f.opb

/-- The Step of an unmapped byte (R88): one Diag event and a skip of `1 + ir[7:6]` bytes, 1 to 4; bit 4 is ignored (R70). -/
def skipUnmapped (ir : Byte) (s : State) : State := (s.emit (.diag ir s.pc)).advance (1 + operandCount ir)

/-- The state with the three bytes of an instruction (`tableBytes`) stored at `pc`, where the next Step fetches. -/
def placeAtPc (s : State) (nbits w : Nat) : State := { s with mem := s.mem.place s.pc.toNat (tableBytes nbits w) }

end Sys2Proof.Machine
end

