-- ==== Sys2Proof/Machine/Flags.lean ====
section
/-! DEFINITION. The flag register `FL = 0b00000LGE` (10_state.md R26; PRESUMED layout, log entry 3). CMP is its only
writer; JEQ and JNE read `E`. -/

namespace Sys2Proof.Machine

/-- `FL.L`: the last CMP found `x[a] < x[b]`. -/
def State.flagL (s : State) : Bool := s.fl.getLsbD 2

/-- `FL.G`: the last CMP found `x[a] > x[b]`. -/
def State.flagG (s : State) : Bool := s.fl.getLsbD 1

/-- `FL.E`: the last CMP found `x[a] = x[b]`. -/
def State.flagE (s : State) : Bool := s.fl.getLsbD 0

/-- The value CMP writes to `FL` (41_alu.md R111): unsigned order, the first operand on the left. -/
def compareFlags (va vb : Byte) : Byte :=
  if va.toNat < vb.toNat then 0x04#8
  else if vb.toNat < va.toNat then 0x02#8
  else 0x01#8

end Sys2Proof.Machine
end

