-- ==== Sys2Proof/Machine/Operands.lean ====
section
/-! DEFINITION. Operand decode (30_encoding.md R63, R64). There are two operand forms: a register index, which is the
whole operand byte and is checked, and LDI's immediate, which is the byte itself and needs no operation. -/

namespace Sys2Proof.Machine

/-- `RegIdx(b)` (R63): the register an operand byte names, none when it is above 7. The byte is not masked. -/
def regIdx (b : Byte) : Option (RegIndex) :=
  if h : b.toNat < 8 then some ⟨b.toNat, h⟩ else none

/-- `a <- RegIdx(b)`, then the rest of the instruction; `raise RegisterIndexFault(b)` ends it (R63, R153). -/
def withReg (b : Byte) (s : State) (rest : RegIndex → State) : State :=
  match regIdx b with
  | some a => rest a
  | none => s.raise .registerIndex b.toNat

end Sys2Proof.Machine
end

