-- ==== Sys2Proof/Machine/Alu.lean ====
section
/-! DEFINITION. The ALU and its eleven instructions (41_alu.md). Results are computed over the integers and reduced
modulo 256 when they become a byte (R112). -/

namespace Sys2Proof.Machine

/-- What the ALU gives for one operation. -/
inductive AluResult where
  /-- a value for `x[a]` -/
  | value (v : Byte)
  /-- a value for `FL` -/
  | flags (f : Byte)
  /-- a zero divisor (R104) -/
  | zeroDivisor
  /-- an operation identifier outside the eleven (R113) -/
  | unsupported
  deriving DecidableEq, Repr

/-! ### The operations (R112) -/

/-- ADD (R101). -/
def aluAdd (va vb : Byte) : Byte := BitVec.ofNat 8 (va.toNat + vb.toNat)

/-- SUB (R102): the non-negative residue of the difference. -/
def aluSub (va vb : Byte) : Byte := BitVec.ofInt 8 ((va.toNat : Int) - (vb.toNat : Int))

/-- MUL (R103): the low 8 bits of the product. -/
def aluMul (va vb : Byte) : Byte := BitVec.ofNat 8 (va.toNat * vb.toNat)

/-- DIV with a divisor that is not 0 (R104): unsigned floor division. -/
def aluDiv (va vb : Byte) : Byte := BitVec.ofNat 8 (va.toNat / vb.toNat)

/-- AND (R105). -/
def aluAnd (va vb : Byte) : Byte := va &&& vb

/-- OR (R106). -/
def aluOr (va vb : Byte) : Byte := va ||| vb

/-- XOR (R107). -/
def aluXor (va vb : Byte) : Byte := va ^^^ vb

/-- SHL (R108): the amount is the whole of `vb`, 0 to 255, not masked. -/
def aluShl (va vb : Byte) : Byte := BitVec.ofNat 8 (va.toNat * 2 ^ vb.toNat)

/-- INC (R109). -/
def aluInc (va : Byte) : Byte := BitVec.ofNat 8 (va.toNat + 1)

/-- DEC (R110). -/
def aluDec (va : Byte) : Byte := BitVec.ofInt 8 ((va.toNat : Int) - 1)

/-- One operation of the ALU: its identifier and what it gives for two operand values. -/
structure AluRow where
  id : Byte
  op : Byte → Byte → AluResult

/-- The eleven operations. The identifier is the instruction's opcode byte (DESIGN CHOICE, log entry 9: the spec numbers no
identifiers). -/
def aluTable : List AluRow :=
  [⟨0xA0#8, fun va vb => .value (aluAdd va vb)⟩,
   ⟨0xA1#8, fun va vb => .value (aluSub va vb)⟩,
   ⟨0xA2#8, fun va vb => .value (aluMul va vb)⟩,
   ⟨0xA3#8, fun va vb => if vb.toNat = 0 then .zeroDivisor else .value (aluDiv va vb)⟩,
   ⟨0xA8#8, fun va vb => .value (aluAnd va vb)⟩,
   ⟨0xAA#8, fun va vb => .value (aluOr va vb)⟩,
   ⟨0xAB#8, fun va vb => .value (aluXor va vb)⟩,
   ⟨0xAC#8, fun va vb => .value (aluShl va vb)⟩,
   ⟨0x65#8, fun va _ => .value (aluInc va)⟩,
   ⟨0x66#8, fun va _ => .value (aluDec va)⟩,
   ⟨0xA7#8, fun va vb => .flags (compareFlags va vb)⟩]

/-- The ALU: an operation identifier and two operand values. An identifier outside the eleven is unsupported (R113). -/
def alu (id va vb : Byte) : AluResult :=
  match aluTable.find? fun r => r.id == id with
  | some r => r.op va vb
  | none => .unsupported

/-- Run one ALU operation whose result goes to `x[a]` or to `FL`, then `Advance(k)` (R100). A zero divisor raises
DivideByZero(pc) (R154) and an unsupported identifier AluOpFault (R155), with nothing written. -/
def aluRun (id : Byte) (a : RegIndex) (va vb : Byte) (k : Nat) (s : State) : State :=
  match alu id va vb with
  | .value v => (s.writeReg a v).advance k
  | .flags f => (s.setFl f).advance k
  | .zeroDivisor => s.raise .divideByZero s.pc.toNat
  | .unsupported => s.raise .aluOp id.toNat

/-- A two-register ALU instruction: `a <- RegIdx(opa) ; b <- RegIdx(opb)`, both sources read, then the operation and
`Advance(3)` (R100). -/
def aluTwoReg (id opa opb : Byte) (s : State) : State :=
  withReg opa s fun a => withReg opb s fun b => aluRun id a (s.readReg a) (s.readReg b) 3 s

/-- A one-register ALU instruction, INC or DEC, with `Advance(2)` (R100). It has no second operand. -/
def aluOneReg (id opa : Byte) (s : State) : State :=
  withReg opa s fun a => aluRun id a (s.readReg a) 0#8 2 s

/-! ### The instructions -/

/-- ADD Ra,Rb (R101). -/
def execAdd (a b : Byte) (s : State) : Host.Outcome State Fault Refusal := .next (aluTwoReg 0xA0#8 a b s)

/-- SUB Ra,Rb (R102). -/
def execSub (a b : Byte) (s : State) : Host.Outcome State Fault Refusal := .next (aluTwoReg 0xA1#8 a b s)

/-- MUL Ra,Rb (R103). -/
def execMul (a b : Byte) (s : State) : Host.Outcome State Fault Refusal := .next (aluTwoReg 0xA2#8 a b s)

/-- DIV Ra,Rb (R104). -/
def execDiv (a b : Byte) (s : State) : Host.Outcome State Fault Refusal := .next (aluTwoReg 0xA3#8 a b s)

/-- CMP Ra,Rb (R111). -/
def execCmp (a b : Byte) (s : State) : Host.Outcome State Fault Refusal := .next (aluTwoReg 0xA7#8 a b s)

/-- AND Ra,Rb (R105). -/
def execAnd (a b : Byte) (s : State) : Host.Outcome State Fault Refusal := .next (aluTwoReg 0xA8#8 a b s)

/-- OR Ra,Rb (R106). -/
def execOr (a b : Byte) (s : State) : Host.Outcome State Fault Refusal := .next (aluTwoReg 0xAA#8 a b s)

/-- XOR Ra,Rb (R107). -/
def execXor (a b : Byte) (s : State) : Host.Outcome State Fault Refusal := .next (aluTwoReg 0xAB#8 a b s)

/-- SHL Ra,Rb (R108). -/
def execShl (a b : Byte) (s : State) : Host.Outcome State Fault Refusal := .next (aluTwoReg 0xAC#8 a b s)

/-- INC Ra (R109). -/
def execInc (a : Byte) (s : State) : Host.Outcome State Fault Refusal := .next (aluOneReg 0x65#8 a s)

/-- DEC Ra (R110). -/
def execDec (a : Byte) (s : State) : Host.Outcome State Fault Refusal := .next (aluOneReg 0x66#8 a s)

end Sys2Proof.Machine
end

