-- ==== Sys2Proof/Machine/Control.lean ====
section
/-! DEFINITION. The jumps and the halt (43_jumps_halt.md). A jump's target is absolute and unchecked (R139). -/

namespace Sys2Proof.Machine

/-- A jump to the address in a register when `taken`, and `Advance(2)` when not (R87). The register index is checked
in either case (R136, R137). -/
def jumpIf (taken : Bool) (opa : Byte) (s : State) : State :=
  withReg opa s fun a => if taken then s.setPc (s.readReg a) else s.advance 2

/-- JMP Ra (R135). -/
def execJmp (opa : Byte) (s : State) : Host.Outcome State Fault Refusal := .next (jumpIf true opa s)

/-- JEQ Ra (R136): taken when `E = 1`. -/
def execJeq (opa : Byte) (s : State) : Host.Outcome State Fault Refusal := .next (jumpIf s.flagE opa s)

/-- JNE Ra (R137): taken when `E = 0`. -/
def execJne (opa : Byte) (s : State) : Host.Outcome State Fault Refusal := .next (jumpIf (!s.flagE) opa s)

/-- HLT (R138): HALTED, and `pc` still advances by 1. -/
def execHlt (s : State) : Host.Outcome State Fault Refusal := .next (s.halt.advance 1)

end Sys2Proof.Machine
end

