-- ==== Sys2Proof/Machine/LoadPrint.lean ====
section
/-! DEFINITION. Load immediate and print (44_load_print.md). -/

namespace Sys2Proof.Machine

/-- LDI Ra,v (R145): the immediate is the byte itself and is never checked. -/
def execLdi (opa v : Byte) (s : State) : Host.Outcome State Fault Refusal :=
  .next (withReg opa s fun a => (s.writeReg a v).advance 3)

/-- PRN Ra (R146): one Print event with the register's unsigned value. -/
def execPrn (opa : Byte) (s : State) : Host.Outcome State Fault Refusal :=
  .next (withReg opa s fun a => (s.emit (.print (s.readReg a))).advance 2)

end Sys2Proof.Machine
end

