-- ==== Sys2Proof/Machine/Stack.lean ====
section
/-! DEFINITION. The stack instructions (42_stack.md). -/

namespace Sys2Proof.Machine

/-- PSH Ra (R122): the register is read before `push` changes `SP`, so PSH R7 stores the old `SP`. -/
def execPsh (opa : Byte) (s : State) : Host.Outcome State Fault Refusal :=
  .next (withReg opa s fun a => (s.push (s.readReg a)).advance 2)

/-- POP Ra (R123): the register is written after `SP` is incremented, so POP R7 leaves the popped byte in `SP`. -/
def execPop (opa : Byte) (s : State) : Host.Outcome State Fault Refusal :=
  .next (withReg opa s fun a => (s.popState.writeReg a s.popValue).advance 2)

/-- CALL Ra (R124): pushes the address of the next instruction, `pc + 2`, then jumps to the register as it is AFTER
the push, so CALL R7 jumps to the decremented `SP`. A CALL that a step runs has `pc <= 253`; the 8-bit sum wraps only
above that (log entry 6). -/
def execCall (opa : Byte) (s : State) : Host.Outcome State Fault Refusal :=
  .next (withReg opa s fun a =>
    let t := s.push (s.pc + 2#8)
    t.setPc (t.readReg a))

/-- RET (R125). -/
def execRet (s : State) : Host.Outcome State Fault Refusal :=
  .next (s.popState.setPc s.popValue)

end Sys2Proof.Machine
end

