-- ==== Sys2Proof/Machine/Step.lean ====
section
/-! DEFINITION. One Step (40_instruction_cycle.md R80). -/

namespace Sys2Proof.Machine

/-- One Step. It is defined only in RUNNING (R80); HALTED and FAULTED have no successor (00_scope.md R13). A prefetch
above address 255 raises AddressFault before anything is decoded (R82, R158); an unmapped byte is skipped (R88). -/
def step (s : State) : Host.Outcome State Fault Refusal :=
  match s.runState with
  | .halted => .fault .haltedNoStep
  | .faulted => .fault .faultedNoStep
  | .running =>
    match fetch s with
    | .error addr => .next (s.raise .address addr)
    | .ok f =>
      match selectInstr f with
      | some i => exec i s
      | none => .next (skipUnmapped f.ir s)

/-- The state with an instruction's bytes stored where the next Step fetches, at `pc` (log entry 8). Nothing else
changes. -/
def State.withFetchWord (s : State) (nbits w : Nat) : State := placeAtPc s nbits w

end Sys2Proof.Machine
end

