-- ==== Sys2Proof/Machine/HostPort.lean ====
section
/-! DEFINITION. The host's inputs RESET, LOAD and RUN (00_scope.md R7; 70_reset_and_hazards.md R180 to R187). They are
applied outside a Step; the host touches nothing while the core runs (R187, log entry 12). -/

namespace Sys2Proof.Machine

/-- `RESET` (R180): every piece of state takes its reset value, in whatever state it is applied. -/
def hostReset (_ : State) : State := State.reset

/-- `LOAD(bytes)` (R182): the image goes to memory from address 0 and nothing else changes; an image of more than 256
bytes is refused (R183). -/
def hostLoad (bytes : List Byte) (s : State) : Host.Outcome State Fault Refusal :=
  if bytes.length ≤ 256 then .next { s with mem := s.mem.place 0 bytes }
  else .refused .imageTooLong

/-- `RUN` for at most `fuel` Steps (R184, R89): Steps are taken as long as `run_state` is RUNNING, and a state that has
left RUNNING is kept. Running out of fuel is no state of the machine: a run may be infinite. -/
def hostRun : Nat → State → State
  | 0, s => s
  | fuel + 1, s =>
    match step s with
    | .next t => hostRun fuel t
    | .fault _ => s
    | .refused _ => s

end Sys2Proof.Machine
end

