-- ==== Sys2Proof/Machine/Output.lean ====
section
/-! DEFINITION. The line the output sink shows for an event (00_scope.md R6). The events are what the state records;
the text is the sink's. -/

namespace Sys2Proof.Machine

/-- One hexadecimal digit, in capitals. -/
def hexDigit (n : Nat) : Char := "0123456789ABCDEF".toList.getD n '?'

/-- A byte as two hexadecimal digits. DESIGN CHOICE (log entry 11): the spec fixes no wording (93 U9). -/
def hexByte (b : Byte) : String := "0x" ++ String.ofList [hexDigit (b.toNat / 16), hexDigit (b.toNat % 16)]

/-- The sink's line for an event, without its line end: the decimal numeral of a printed value, with no leading zeros;
for an unmapped opcode a line that names the opcode and its address. -/
def OutEvent.line : OutEvent → String
  | .print v => toString v.toNat
  | .diag op addr => "Invalid instruction " ++ hexByte op ++ " at address " ++ hexByte addr

end Sys2Proof.Machine
end

