-- ==== Sys2Proof/Safety.lean ====
section
/-! DEFINITION. The terms claims are stated in: what a safe run is, the machine's invariant, what an instruction leaves
unchanged, and what an advance and a raise do. -/

namespace Sys2Proof.Machine

/-! ### Safe runs and the invariant -/

/-- The run has ended normally: "a claim that a program \"runs to completion\" means it reaches HALTED"
(60_exceptions.md R160). -/
def State.endedNormally (s : State) : Prop := s.runState = .halted

/-- In FAULTED, the fault registers hold a cause and its detail as 60_exceptions.md R151 has them; AluOpFault is never
there (R155). -/
def State.faultReport (s : State) : Prop :=
  match s.faultCause with
  | .none => False
  | .address => s.faultInfo = 256 ∨ s.faultInfo = 257
  | .registerIndex => 8 ≤ s.faultInfo ∧ s.faultInfo ≤ 255
  | .divideByZero => s.faultInfo = s.pc.toNat
  | .aluOp => False

/-- What holds of the machine after every step: memory is in canonical form; at most one flag is set and bits 7..3 of
`FL` are 0 (10_state.md R26, R27); the fault registers are 0 outside FAULTED (R29) and report a cause of R151 in it. -/
structure State.Inv (s : State) : Prop where
  mem_wf : s.mem.wf
  fl_legal : s.fl = 0x00#8 ∨ s.fl = 0x01#8 ∨ s.fl = 0x02#8 ∨ s.fl = 0x04#8
  no_fault : s.runState ≠ .faulted → s.faultCause = .none ∧ s.faultInfo = 0
  fault_report : s.runState = .faulted → s.faultReport

/-! ### Frames -/

/-- The operand byte that names register `i`. -/
def regByte (i : RegIndex) : Byte := BitVec.ofNat 8 i.val

/-- Every register outside `l` holds what it held. -/
def SameRegsExcept (l : List (RegIndex)) (s t : State) : Prop := ∀ i, i ∉ l → t.readReg i = s.readReg i

/-- Every byte of memory reads as before. -/
def SameMem (s t : State) : Prop := ∀ addr : Nat, t.mem.read addr = s.mem.read addr

/-- Every byte of memory but the one at address `a` reads as before. -/
def SameMemExcept (a : Byte) (s t : State) : Prop :=
  ∀ addr : Nat, addr ≠ a.toNat → t.mem.read addr = s.mem.read addr

/-- The run state and the fault registers hold what they held. -/
def SameRun (s t : State) : Prop :=
  t.runState = s.runState ∧ t.faultCause = s.faultCause ∧ t.faultInfo = s.faultInfo

/-- The program counter and the run state of `t` after `Advance(k)` in `s` (40_instruction_cycle.md R85): the sum, or
AddressFault with `pc` kept when the sum is above 255. -/
def AdvancedBy (k : Nat) (s t : State) : Prop :=
  (s.pc.toNat + k ≤ 255 → t.pc.toNat = s.pc.toNat + k ∧ SameRun s t) ∧
  (255 < s.pc.toNat + k →
    t.pc = s.pc ∧ t.runState = .faulted ∧ t.faultCause = .address ∧ t.faultInfo = s.pc.toNat + k)

/-- `t` is `s` with a fatal fault raised and nothing else changed (60_exceptions.md R159). -/
def RaisedOnly (cause : FaultCause) (info : Nat) (s t : State) : Prop :=
  t.runState = .faulted ∧ t.faultCause = cause ∧ t.faultInfo = info ∧
  SameRegsExcept [] s t ∧ t.pc = s.pc ∧ t.fl = s.fl ∧ SameMem s t ∧ t.out = s.out

/-! ### The order of detection (60_exceptions.md R158) -/

/-- The divisor an instruction finds zero: DIV whose second register holds 0 (R154). -/
def State.zeroDivisor (s : State) : Instr → Bool
  | .div _ b => (regIdx b).any fun j => s.readReg j == 0#8
  | _ => false

/-- The cause and the detail a Step of a RUNNING state records, `(none, 0)` when it does not fault: the conditions of
R158 in its order, with the details of R151. -/
def State.firstFault (s : State) : FaultCause × Nat :=
  if 254 ≤ s.pc.toNat then (.address, 256)
  else
    let ir := s.loadByte s.pc
    let past := s.pc.toNat + 1 + ir.toNat / 64
    match decodeBytes ir (s.mem.read (s.pc.toNat + 1)) (s.mem.read (s.pc.toNat + 2)) with
    | none => if 255 < past then (.address, past) else (.none, 0)
    | some i =>
      match i.regOperands.find? fun b => 7 < b.toNat with
      | some b => (.registerIndex, b.toNat)
      | none =>
        if s.zeroDivisor i then (.divideByZero, s.pc.toNat)
        else if 255 < past && !setsPc ir then (.address, past)
        else (.none, 0)

/-! ### Two states that differ in one part -/

/-- The two states agree in everything but the flags L and G (and the unused bits of `FL`). -/
def AgreeButLG (s t : State) : Prop :=
  t.regs = s.regs ∧ t.pc = s.pc ∧ t.flagE = s.flagE ∧ SameRun s t ∧ t.mem = s.mem ∧ t.out = s.out

/-- `s` with the events `before` ahead of its own. -/
def State.withEarlierOutput (s : State) (before : List OutEvent) : State := { s with out := before ++ s.out }

end Sys2Proof.Machine
end

