-- ==== Sys2Proof/Certificates/Slice0/Obligations.lean ====
section
/-! DEFINITION. The statements for the provers. Each says, with its rule, what the machine or an instruction does. The
terms (`SameMem`, `AdvancedBy`, `RaisedOnly`, ...) are those of Sys2Proof/Safety.lean. -/

open Sys2Proof Sys2Proof.Machine

/-! ### Reset, load and run -/

/-- 10_state.md R34: every piece of state after RESET. -/
def Obligations.ResetGivesEveryPieceItsValue : Prop :=
  (∀ i : RegIndex, State.reset.readReg i = if i = 7 then 0xF4#8 else 0x00#8) ∧
  State.reset.sp = 0xF4#8 ∧ State.reset.pc = 0x00#8 ∧ State.reset.fl = 0x00#8 ∧
  State.reset.flagL = false ∧ State.reset.flagG = false ∧ State.reset.flagE = false ∧
  State.reset.runState = .running ∧ State.reset.faultCause.code = 0 ∧ State.reset.faultInfo = 0 ∧
  (∀ addr : Nat, State.reset.mem.read addr = 0x00#8) ∧ State.reset.out = [] ∧
  ∀ s : State, hostReset s = State.reset

/-- The invariant holds of the reset state. -/
def Obligations.ResetMeetsTheInvariant : Prop := State.reset.Inv

/-- Every step keeps the invariant: memory in canonical form, a legal flag register, fault registers that report. -/
def Obligations.EveryStepKeepsTheInvariant : Prop :=
  ∀ s t : State, s.Inv → step s = .next t → t.Inv

/-- 70_reset_and_hazards.md R182: LOAD writes the image from address 0 and changes nothing else. -/
def Obligations.LoadWritesTheImageAndNothingElse : Prop :=
  ∀ (bytes : List Byte) (s : State), bytes.length ≤ 256 →
    ∃ t, hostLoad bytes s = .next t ∧
      (∀ i (h : i < bytes.length), t.mem.read i = bytes[i]) ∧
      (∀ addr, bytes.length ≤ addr → t.mem.read addr = s.mem.read addr) ∧
      SameRegsExcept [] s t ∧ t.pc = s.pc ∧ t.fl = s.fl ∧ t.out = s.out ∧ SameRun s t

/-- 70_reset_and_hazards.md R183: an image longer than memory is refused; the empty image is legal and, loaded after
RESET, leaves all memory zero. -/
def Obligations.LongImageIsRefusedAndEmptyOneIsLegal : Prop :=
  (∀ (bytes : List Byte) (s : State), 256 < bytes.length → hostLoad bytes s = .refused .imageTooLong) ∧
  ∃ t, hostLoad [] State.reset = .next t ∧ ∀ addr : Nat, t.mem.read addr = 0x00#8

/-- Every state that any run of any loaded image reaches meets the invariant. -/
def Obligations.EveryLoadedRunMeetsTheInvariant : Prop :=
  ∀ (bytes : List Byte) (s : State) (n : Nat), hostLoad bytes State.reset = .next s → (hostRun n s).Inv

/-- 40_instruction_cycle.md R89, 60_exceptions.md R160: a run that has left RUNNING takes no further Step, and all of its
state is kept. -/
def Obligations.EndedRunKeepsItsState : Prop :=
  ∀ (n m : Nat) (s : State), (hostRun n s).runState ≠ .running → hostRun (n + m) s = hostRun n s

/-! ### Encoding -/

/-- Decoding and encoding are inverse: a byte sequence decodes to an instruction and a rest exactly when it is that
instruction's encoding followed by that rest; every operand byte is at every value. -/
def Obligations.DecodeIsTheInverseOfEncode : Prop :=
  ∀ (bs rest : List Byte) (i : Instr), decode bs = .ok (i, rest) ↔ bs = encode i ++ rest

/-- 30_encoding.md R66 (decode by exact match): a byte sequence is rejected as unmapped exactly when its first byte is no
instruction's opcode byte; there are 21 distinct mapped values. -/
def Obligations.DecodeRejectsExactlyTheUnmappedBytes : Prop :=
  (∀ (ir : Byte) (rest : List Byte), decode (ir :: rest) = .error (.unmapped ir) ↔ ∀ i : Instr, i.opcode ≠ ir) ∧
  mappedOpcodes.length = 21 ∧ mappedOpcodes.Nodup ∧ ∀ i : Instr, i.opcode ∈ mappedOpcodes

/-- Words written out from the spec's encodings (30_encoding.md R62, R65) decode to the instructions they stand for. -/
def Obligations.SpecWordsDecodeToTheirInstructions : Prop :=
  decode [0b10000010#8, 0b00000000#8, 0b00001000#8] = .ok (.ldi 0 8, []) ∧
  decode [0b10100010#8, 0b00000000#8, 0b00000001#8] = .ok (.mul 0 1, []) ∧
  decode [0b01000111#8, 0b00000000#8] = .ok (.prn 0, []) ∧
  decode [0b01010000#8, 0b00000001#8] = .ok (.call 1, []) ∧
  decode [0b01010110#8, 0b00000011#8] = .ok (.jne 3, []) ∧
  decode [0b00000001#8, 0b01000111#8] = .ok (.hlt, [0b01000111#8])

/-! ### The Step -/

/-- 40_instruction_cycle.md R80, R84: when the bytes at `pc` decode to an instruction, the Step of a RUNNING state is that
instruction's meaning at that state, and nothing is added around it. -/
def Obligations.StepRunsTheDecodedInstruction : Prop :=
  ∀ (s : State) (i : Instr) (rest : List Byte), s.runState = .running → s.pc.toNat ≤ 253 →
    decode [s.mem.read s.pc.toNat, s.mem.read (s.pc.toNat + 1), s.mem.read (s.pc.toNat + 2)] = .ok (i, rest) →
    step s = exec i s

/-- 40_instruction_cycle.md R88: the Step of an unmapped byte emits one Diag event and skips `1 + ir[7:6]` bytes, bit 4
ignored; nothing else changes unless the advance faults. -/
def Obligations.UnmappedByteIsReportedAndSkipped : Prop :=
  ∀ s : State, s.runState = .running → s.pc.toNat ≤ 253 → s.loadByte s.pc ∉ mappedOpcodes →
    ∃ t, step s = .next t ∧ t.out = s.out ++ [.diag (s.loadByte s.pc) s.pc] ∧
      SameRegsExcept [] s t ∧ t.fl = s.fl ∧ SameMem s t ∧
      AdvancedBy (1 + (s.loadByte s.pc).toNat / 64) s t

/-- 40_instruction_cycle.md R82, 60_exceptions.md R152 (a), (b): with `pc` at 254 or 255 the prefetch faults with 256
whatever the byte there is, and nothing has been executed. -/
def Obligations.PrefetchAboveMemoryFaults : Prop :=
  ∀ s : State, s.runState = .running → 254 ≤ s.pc.toNat →
    ∃ t, step s = .next t ∧ RaisedOnly .address 256 s t

/-- 00_scope.md R13: a Step has a successor exactly in RUNNING; it emits at most one event, and HALTED and FAULTED stop by
name (the names are the model's, log entry 2). -/
def Obligations.StepHasASuccessorExactlyWhenRunning : Prop :=
  (∀ s : State, (∃ t, step s = .next t) ↔ s.runState = .running) ∧
  (∀ s t : State, step s = .next t → t.out = s.out ∨ ∃ e, t.out = s.out ++ [e]) ∧
  (∀ s : State, s.runState = .halted → step s = .fault .haltedNoStep) ∧
  (∀ s : State, s.runState = .faulted → step s = .fault .faultedNoStep)

/-- 10_state.md R26: the only writer of the flags is CMP, and after any CMP exactly one of L, G, E is 1. -/
def Obligations.OnlyCmpWritesTheFlags : Prop :=
  ∀ s t : State, step s = .next t →
    t.fl = s.fl ∨
      (s.loadByte s.pc = 0xA7#8 ∧
        ((t.flagL = true ∧ t.flagG = false ∧ t.flagE = false) ∨
         (t.flagL = false ∧ t.flagG = true ∧ t.flagE = false) ∨
         (t.flagL = false ∧ t.flagG = false ∧ t.flagE = true)))

/-- 20_memory.md R48: the only writes to memory are the stack writes of PSH and CALL, at `SP` after the decrement; every
other byte of memory is unchanged by every Step. -/
def Obligations.OnlyPshAndCallWriteMemoryAndOnlyAtTheStack : Prop :=
  ∀ s t : State, step s = .next t →
    SameMemExcept s.pushAddr s t ∧
    (s.loadByte s.pc ≠ 0x45#8 → s.loadByte s.pc ≠ 0x50#8 → SameMem s t)

/-- 10_state.md R28: a Step reaches HALTED exactly when it executes HLT. -/
def Obligations.OnlyHltReachesHalted : Prop :=
  ∀ s t : State, step s = .next t →
    (t.runState = .halted ↔ s.pc.toNat ≤ 253 ∧ s.loadByte s.pc = 0x01#8)

/-- 60_exceptions.md R159: a Step that ends in FAULTED keeps `pc`, and for every cause but AddressFault, and for the
AddressFault of the prefetch, nothing but the run state and the fault registers has changed. -/
def Obligations.FaultingStepIsPrecise : Prop :=
  ∀ s t : State, step s = .next t → t.runState = .faulted →
    t.pc = s.pc ∧
    (t.faultCause ≠ .address ∨ 254 ≤ s.pc.toNat → RaisedOnly t.faultCause t.faultInfo s t)

/-- 60_exceptions.md R158: which fault a Step records, by the order of detection (`State.firstFault`). -/
def Obligations.FaultsAreDetectedInOrder : Prop :=
  ∀ s : State, s.runState = .running → s.faultCause = .none → s.faultInfo = 0 →
    ∃ t, step s = .next t ∧ (t.faultCause, t.faultInfo) = s.firstFault ∧
      (t.runState = .faulted ↔ s.firstFault.1 ≠ .none)

/-- 60_exceptions.md R153: an instruction whose first register operand above 7 is `b` raises RegisterIndexFault(b), with
nothing else changed. -/
def Obligations.RegisterOperandAboveSevenRaises : Prop :=
  ∀ (i : Instr) (b : Byte) (s : State), (i.regOperands.find? fun x => 7 < x.toNat) = some b →
    ∃ t, exec i s = .next t ∧ RaisedOnly .registerIndex b.toNat s t

/-- 41_alu.md R113: an ALU operation identifier outside the eleven raises AluOpFault with that identifier. The identifiers
are the model's choice, the opcode bytes (log entry 9). -/
def Obligations.UnsupportedAluIdentifierRaises : Prop :=
  ∀ (id va vb : Byte) (a : RegIndex) (k : Nat) (s : State),
    id ∉ [0xA0#8, 0xA1#8, 0xA2#8, 0xA3#8, 0xA7#8, 0xA8#8, 0xAA#8, 0xAB#8, 0xAC#8, 0x65#8, 0x66#8] →
    RaisedOnly .aluOp id.toNat s (aluRun id a va vb k s)

/-! ### ALU instructions -/

/-- The register faults of an instruction of two register operands: the first operand is checked first. -/
def RaisesOnBadRegisters (mk : Byte → Byte → Instr) : Prop :=
  (∀ (a b : Byte) (s : State), 7 < a.toNat → ∃ t, exec (mk a b) s = .next t ∧
    RaisedOnly .registerIndex a.toNat s t) ∧
  (∀ (a b : Byte) (s : State), a.toNat ≤ 7 → 7 < b.toNat → ∃ t, exec (mk a b) s = .next t ∧
    RaisedOnly .registerIndex b.toNat s t)

/-- The register fault of an instruction of one register operand. -/
def RaisesOnBadRegister (mk : Byte → Instr) : Prop :=
  ∀ (a : Byte) (s : State), 7 < a.toNat → ∃ t, exec (mk a) s = .next t ∧ RaisedOnly .registerIndex a.toNat s t

/-- An instruction of two registers, with opcode byte `op`, that puts into its first one a result `res` accepts for the
two old values, and then advances by 3: its encoding, its result and frame, and the faults of its operands and of its
advance. -/
def WritesFirstOfTwo (op : Byte) (mk : Byte → Byte → Instr) (res : Byte → Byte → Byte → Prop) : Prop :=
  (∀ a b : Byte, encode (mk a b) = [op, a, b]) ∧
  (∀ (a b : RegIndex) (s : State), ∃ t, exec (mk (regByte a) (regByte b)) s = .next t ∧
    res (s.readReg a) (s.readReg b) (t.readReg a) ∧
    SameRegsExcept [a] s t ∧ t.fl = s.fl ∧ SameMem s t ∧ t.out = s.out ∧ AdvancedBy 3 s t) ∧
  RaisesOnBadRegisters mk

/-- 41_alu.md R101, R102, R103. -/
def Obligations.AddSubMulWrapModulo256 : Prop :=
  WritesFirstOfTwo 0xA0#8 .add (fun x y r => r.toNat = (x.toNat + y.toNat) % 256) ∧
  WritesFirstOfTwo 0xA1#8 .sub (fun x y r => (r.toNat : Int) = ((x.toNat : Int) - (y.toNat : Int)) % 256) ∧
  WritesFirstOfTwo 0xA2#8 .mul (fun x y r => r.toNat = (x.toNat * y.toNat) % 256)

/-- 41_alu.md R105, R106, R107: bit by bit. -/
def Obligations.AndOrXorWorkBitByBit : Prop :=
  WritesFirstOfTwo 0xA8#8 .and (fun x y r => ∀ i < 8, r.getLsbD i = (x.getLsbD i && y.getLsbD i)) ∧
  WritesFirstOfTwo 0xAA#8 .or (fun x y r => ∀ i < 8, r.getLsbD i = (x.getLsbD i || y.getLsbD i)) ∧
  WritesFirstOfTwo 0xAB#8 .xor (fun x y r => ∀ i < 8, r.getLsbD i = (x.getLsbD i ^^ y.getLsbD i))

/-- 41_alu.md R108: the amount is the whole second register; 8 or more gives 0. -/
def Obligations.ShlUsesTheWholeAmount : Prop :=
  WritesFirstOfTwo 0xAC#8 .shl (fun x y r =>
    r.toNat = (x.toNat * 2 ^ y.toNat) % 256 ∧ (8 ≤ y.toNat → r = 0#8) ∧ (y = 0#8 → r = x))

/-- 41_alu.md R104: unsigned floor division; a zero divisor raises DivideByZero(pc) and writes nothing. -/
def Obligations.DivIsFloorDivisionOrRaises : Prop :=
  (∀ a b : Byte, encode (.div a b) = [0xA3#8, a, b]) ∧
  (∀ (a b : RegIndex) (s : State), s.readReg b ≠ 0#8 → ∃ t, exec (.div (regByte a) (regByte b)) s = .next t ∧
    (t.readReg a).toNat = (s.readReg a).toNat / (s.readReg b).toNat ∧
    SameRegsExcept [a] s t ∧ t.fl = s.fl ∧ SameMem s t ∧ t.out = s.out ∧ AdvancedBy 3 s t) ∧
  (∀ (a b : RegIndex) (s : State), s.readReg b = 0#8 → ∃ t, exec (.div (regByte a) (regByte b)) s = .next t ∧
    RaisedOnly .divideByZero s.pc.toNat s t) ∧
  RaisesOnBadRegisters .div

/-- 41_alu.md R109, R110. -/
def Obligations.IncAndDecWrapModulo256 : Prop :=
  (∀ a : Byte, encode (.inc a) = [0x65#8, a] ∧ encode (.dec a) = [0x66#8, a]) ∧
  (∀ (a : RegIndex) (s : State), ∃ t, exec (.inc (regByte a)) s = .next t ∧
    (t.readReg a).toNat = ((s.readReg a).toNat + 1) % 256 ∧
    SameRegsExcept [a] s t ∧ t.fl = s.fl ∧ SameMem s t ∧ t.out = s.out ∧ AdvancedBy 2 s t) ∧
  (∀ (a : RegIndex) (s : State), ∃ t, exec (.dec (regByte a)) s = .next t ∧
    (t.readReg a).toNat = ((s.readReg a).toNat + 255) % 256 ∧
    SameRegsExcept [a] s t ∧ t.fl = s.fl ∧ SameMem s t ∧ t.out = s.out ∧ AdvancedBy 2 s t) ∧
  RaisesOnBadRegister .inc ∧ RaisesOnBadRegister .dec

/-- 41_alu.md R111: all of `FL` is written, exactly one of L, G, E by unsigned order; no register changes. The places of
the three bits in the byte values are PRESUMED (log entry 3). -/
def Obligations.CmpSetsExactlyOneFlag : Prop :=
  (∀ a b : Byte, encode (.cmp a b) = [0xA7#8, a, b]) ∧
  (∀ (a b : RegIndex) (s : State), ∃ t, exec (.cmp (regByte a) (regByte b)) s = .next t ∧
    ((s.readReg a).toNat < (s.readReg b).toNat → t.fl = 0b00000100#8) ∧
    ((s.readReg b).toNat < (s.readReg a).toNat → t.fl = 0b00000010#8) ∧
    ((s.readReg a).toNat = (s.readReg b).toNat → t.fl = 0b00000001#8) ∧
    SameRegsExcept [] s t ∧ SameMem s t ∧ t.out = s.out ∧ AdvancedBy 3 s t) ∧
  RaisesOnBadRegisters .cmp

/-! ### Load and print -/

/-- 44_load_print.md R145: every immediate is legal. -/
def Obligations.LdiLoadsTheImmediate : Prop :=
  (∀ a v : Byte, encode (.ldi a v) = [0x82#8, a, v]) ∧
  (∀ (a : RegIndex) (v : Byte) (s : State), ∃ t, exec (.ldi (regByte a) v) s = .next t ∧
    t.readReg a = v ∧ SameRegsExcept [a] s t ∧ t.fl = s.fl ∧ SameMem s t ∧ t.out = s.out ∧ AdvancedBy 3 s t) ∧
  ∀ v : Byte, RaisesOnBadRegister (.ldi · v)

/-- The source's property S1 (44_load_print.md R146), as two Steps: LDI r,v then PRN r in memory at `pc` outputs exactly
the decimal string of `v`. -/
def LdiThenPrnOutputsTheDecimalString : Prop :=
  ∀ (s : State) (r : RegIndex) (v : Byte), s.runState = .running → s.pc.toNat ≤ 250 →
    s.mem.read s.pc.toNat = 0x82#8 → s.mem.read (s.pc.toNat + 1) = regByte r → s.mem.read (s.pc.toNat + 2) = v →
    s.mem.read (s.pc.toNat + 3) = 0x47#8 → s.mem.read (s.pc.toNat + 4) = regByte r →
    ∃ t u, step s = .next t ∧ step t = .next u ∧
      u.out.map OutEvent.line = s.out.map OutEvent.line ++ [toString v.toNat] ∧
      u.readReg r = v ∧ SameRegsExcept [r] s u ∧ u.pc.toNat = s.pc.toNat + 5

/-- 44_load_print.md R146: one Print event with the register's value, which the sink shows as its decimal numeral;
and the source's property S1. -/
def Obligations.PrnPrintsTheRegister : Prop :=
  (∀ a : Byte, encode (.prn a) = [0x47#8, a]) ∧
  (∀ (a : RegIndex) (s : State), ∃ t, exec (.prn (regByte a)) s = .next t ∧
    t.out = s.out ++ [.print (s.readReg a)] ∧ (OutEvent.print (s.readReg a)).line = toString (s.readReg a).toNat ∧
    SameRegsExcept [] s t ∧ t.fl = s.fl ∧ SameMem s t ∧ AdvancedBy 2 s t) ∧
  RaisesOnBadRegister .prn ∧ LdiThenPrnOutputsTheDecimalString

/-! ### Stack -/

/-- 42_stack.md R120, R122: PSH stores the register's old value at the decremented `SP`, and nothing else in memory
changes. It holds for R7 too, whose old value is stored. -/
def Obligations.PshStoresAtTheDecrementedPointer : Prop :=
  (∀ a : Byte, encode (.psh a) = [0x45#8, a]) ∧
  (∀ (a : RegIndex) (s : State), ∃ t, exec (.psh (regByte a)) s = .next t ∧
    s.pushAddr.toNat = (s.sp.toNat + 255) % 256 ∧ t.sp = s.pushAddr ∧
    t.mem.read s.pushAddr.toNat = s.readReg a ∧ SameMemExcept s.pushAddr s t ∧
    SameRegsExcept [7] s t ∧ t.fl = s.fl ∧ t.out = s.out ∧ AdvancedBy 2 s t) ∧
  RaisesOnBadRegister .psh

/-- 42_stack.md R123 (the source's property S4), as two Steps: PSH then POP round-trips the value and restores `SP`, for
every `SP`, wrap included, when neither register is R7 and the push does not overwrite the POP's own bytes. -/
def PshThenPopRoundTrips : Prop :=
  ∀ (s : State) (a b : RegIndex), s.runState = .running → s.pc.toNat ≤ 251 →
    s.mem.read s.pc.toNat = 0x45#8 → s.mem.read (s.pc.toNat + 1) = regByte a →
    s.mem.read (s.pc.toNat + 2) = 0x46#8 → s.mem.read (s.pc.toNat + 3) = regByte b →
    a ≠ 7 → b ≠ 7 → s.pushAddr.toNat ≠ s.pc.toNat + 2 → s.pushAddr.toNat ≠ s.pc.toNat + 3 →
    ∃ t u, step s = .next t ∧ step t = .next u ∧
      u.readReg b = s.readReg a ∧ u.sp = s.sp ∧ SameRegsExcept [b] s u ∧ SameMemExcept s.pushAddr s u ∧
      u.pc.toNat = s.pc.toNat + 4

/-- 42_stack.md R121, R123: POP gives the register the byte at the old `SP`; `SP` is incremented unless the register is
R7, which ends with the popped byte. And PSH then POP round-trips. -/
def Obligations.PopLoadsFromTheOldPointer : Prop :=
  (∀ a : Byte, encode (.pop a) = [0x46#8, a]) ∧
  (∀ (a : RegIndex) (s : State), ∃ t, exec (.pop (regByte a)) s = .next t ∧
    t.readReg a = s.mem.read s.sp.toNat ∧ (a ≠ 7 → t.sp.toNat = (s.sp.toNat + 1) % 256) ∧
    SameRegsExcept [a, 7] s t ∧ SameMem s t ∧ t.fl = s.fl ∧ t.out = s.out ∧ AdvancedBy 2 s t) ∧
  RaisesOnBadRegister .pop ∧ PshThenPopRoundTrips

/-- 42_stack.md R124: CALL pushes the address after itself and jumps to the register as it is after the push: CALL R7
jumps to the decremented `SP`. -/
def Obligations.CallPushesTheReturnAddressAndJumps : Prop :=
  (∀ a : Byte, encode (.call a) = [0x50#8, a]) ∧
  (∀ (a : RegIndex) (s : State), s.pc.toNat ≤ 253 → ∃ t, exec (.call (regByte a)) s = .next t ∧
    s.pushAddr.toNat = (s.sp.toNat + 255) % 256 ∧ t.sp = s.pushAddr ∧
    (t.mem.read s.pushAddr.toNat).toNat = s.pc.toNat + 2 ∧ SameMemExcept s.pushAddr s t ∧
    t.pc = (if a = 7 then s.pushAddr else s.readReg a) ∧
    SameRegsExcept [7] s t ∧ t.fl = s.fl ∧ t.out = s.out ∧ SameRun s t) ∧
  RaisesOnBadRegister .call

/-- 42_stack.md R125: RET jumps to the byte at the old `SP` and increments `SP`. -/
def Obligations.RetJumpsToThePoppedByte : Prop :=
  encode .ret = [0x11#8] ∧ ∀ s : State, ∃ t, exec .ret s = .next t ∧
    t.pc = s.mem.read s.sp.toNat ∧ t.sp.toNat = (s.sp.toNat + 1) % 256 ∧
    SameRegsExcept [7] s t ∧ SameMem s t ∧ t.fl = s.fl ∧ t.out = s.out ∧ SameRun s t

/-- 42_stack.md R124, R125 (the source's property S5): RET right after CALL returns to the address after the CALL and
restores `SP`. -/
def Obligations.CallThenRetReturns : Prop :=
  ∀ (a : RegIndex) (s : State), s.pc.toNat ≤ 253 →
    ∃ t u, exec (.call (regByte a)) s = .next t ∧ exec .ret t = .next u ∧
      u.pc.toNat = s.pc.toNat + 2 ∧ SameRegsExcept [] s u ∧ SameMemExcept s.pushAddr s u

/-- 20_memory.md R53, 40_instruction_cycle.md R91: a PSH whose store lands on the next opcode byte is seen by the next
fetch, and a PSH whose store lands on its own operand byte still pushes the register it had fetched. -/
def Obligations.StoreIsSeenByTheNextFetchOnly : Prop :=
  ∀ (s : State) (a : RegIndex), s.runState = .running → s.pc.toNat ≤ 253 →
    s.mem.read s.pc.toNat = 0x45#8 → s.mem.read (s.pc.toNat + 1) = regByte a →
    ∃ t, step s = .next t ∧ t.mem.read s.pushAddr.toNat = s.readReg a ∧
      (s.pushAddr.toNat = s.pc.toNat + 2 → s.pc.toNat ≤ 251 →
        ∃ f, fetch t = .ok f ∧ f.ir = s.readReg a)

/-! ### Jumps and halt -/

/-- 43_jumps_halt.md R135. -/
def Obligations.JmpGoesToTheRegister : Prop :=
  (∀ a : Byte, encode (.jmp a) = [0x54#8, a]) ∧
  (∀ (a : RegIndex) (s : State), ∃ t, exec (.jmp (regByte a)) s = .next t ∧
    t.pc = s.readReg a ∧ SameRegsExcept [] s t ∧ SameMem s t ∧ t.fl = s.fl ∧ t.out = s.out ∧ SameRun s t) ∧
  RaisesOnBadRegister .jmp

/-- 43_jumps_halt.md R136, R137: JEQ is taken exactly when `E = 1` and JNE exactly when `E = 0`; not taken, each advances
by 2. -/
def Obligations.JeqAndJneFollowTheEqualFlag : Prop :=
  (∀ a : Byte, encode (.jeq a) = [0x55#8, a] ∧ encode (.jne a) = [0x56#8, a]) ∧
  (∀ (a : RegIndex) (s : State), ∃ t, exec (.jeq (regByte a)) s = .next t ∧
    (s.flagE = true → t.pc = s.readReg a ∧ SameRun s t) ∧
    (s.flagE = false → AdvancedBy 2 s t) ∧
    SameRegsExcept [] s t ∧ SameMem s t ∧ t.fl = s.fl ∧ t.out = s.out) ∧
  (∀ (a : RegIndex) (s : State), ∃ t, exec (.jne (regByte a)) s = .next t ∧
    (s.flagE = false → t.pc = s.readReg a ∧ SameRun s t) ∧
    (s.flagE = true → AdvancedBy 2 s t) ∧
    SameRegsExcept [] s t ∧ SameMem s t ∧ t.fl = s.fl ∧ t.out = s.out) ∧
  RaisesOnBadRegister .jeq ∧ RaisesOnBadRegister .jne

/-- 43_jumps_halt.md R138: HLT enters HALTED, and `pc` still advances by 1; no Step follows; at 254 and 255 a
Step faults instead; no other instruction reaches HALTED. The name of the stop after HLT is the model's (log entry 2). -/
def Obligations.HltHaltsAndAdvances : Prop :=
  encode .hlt = [0x01#8] ∧
  (∀ s : State, s.pc.toNat ≤ 253 → ∃ t, exec .hlt s = .next t ∧
    t.runState = .halted ∧ t.pc.toNat = s.pc.toNat + 1 ∧ t.faultCause = s.faultCause ∧ t.faultInfo = s.faultInfo ∧
    SameRegsExcept [] s t ∧ SameMem s t ∧ t.fl = s.fl ∧ t.out = s.out ∧ step t = .fault .haltedNoStep) ∧
  (∀ s : State, s.runState = .running → 254 ≤ s.pc.toNat → ∃ t, step s = .next t ∧ t.runState = .faulted) ∧
  (∀ s t : State, step s = .next t → t.runState = .halted → s.loadByte s.pc = 0x01#8)

/-! ### What cannot be observed -/

/-- 43_jumps_halt.md R139: `L` and `G` steer nothing. Two states that agree in all but `L` and `G` still do after a run of
any length. -/
def Obligations.LessAndGreaterNeverSteerARun : Prop :=
  ∀ (n : Nat) (s t : State), AgreeButLG s t → AgreeButLG (hostRun n s) (hostRun n t)

/-- 10_state.md R32: no instruction reads the output back. Earlier output changes nothing in a run of any length but the
earlier part of its output; the output only grows; it is empty after reset. -/
def Obligations.OutputOnlyGrowsAndIsNeverReadBack : Prop :=
  (∀ (n : Nat) (before : List OutEvent) (s : State),
    hostRun n (s.withEarlierOutput before) = (hostRun n s).withEarlierOutput before) ∧
  (∀ (n : Nat) (s : State), ∃ more, (hostRun n s).out = s.out ++ more) ∧
  State.reset.out = []
end

