-- ==== Sys2Proof/Laws/Decode.lean ====
section
/-! SUPPORT. The decoder's cases. -/

namespace Sys2Proof

/-- `ir[7:6]` as a quotient. -/
theorem operandCount_eq (ir : Byte) : operandCount ir = ir.toNat / 64 := by
  have := ir.isLt
  simp only [operandCount, BitVec.extractLsb'_toNat, Nat.shiftRight_eq_div_pow]
  omega

/-- The operand count field of an instruction's opcode byte is its number of operand bytes (30_encoding.md R60). -/
theorem operandCount_opcode (i : Instr) : operandCount i.opcode = i.operands.length := by
  rw [operandCount_eq]
  cases i <;> simp [Instr.opcode, Instr.operands]

/-- The table's rows and the encoder agree: a row builds the instruction with its opcode byte, and with the operand
bytes its format uses. -/
theorem opTable_build : ∀ r ∈ opTable, ∀ opa opb : Byte, (r.build opa opb).opcode = r.opcode ∧
    (r.build opa opb).operands = [opa, opb].take (r.build opa opb).operands.length := by
  simp [opTable, Instr.opcode, Instr.operands]

/-- No opcode byte stands in two rows. -/
theorem mappedOpcodes_nodup : mappedOpcodes.Nodup := by decide

/-- What the decoder reads is the instruction with that opcode byte and the operand bytes it uses. -/
theorem decodeBytes_some {ir opa opb : Byte} {i : Instr} (h : decodeBytes ir opa opb = some i) :
    i.opcode = ir ∧ i.operands = [opa, opb].take i.operands.length := by
  obtain ⟨r, hr, rfl⟩ := Option.map_eq_some_iff.mp h
  have hop : r.opcode = ir := by simpa using List.find?_some hr
  obtain ⟨h1, h2⟩ := opTable_build r (List.mem_of_find?_eq_some hr) opa opb
  exact ⟨h1.trans hop, h2⟩

/-- A mapped byte is decoded, an unmapped one is not. -/
theorem decodeBytes_none_iff {ir opa opb : Byte} : decodeBytes ir opa opb = none ↔ ir ∉ mappedOpcodes := by
  simp [decodeBytes, mappedOpcodes]

/-- The decoder reads back an instruction from its own opcode and operands, whatever follows in the unused bytes. -/
theorem decodeBytes_opcode (i : Instr) (rest : List Byte) :
    decodeBytes i.opcode ((i.operands ++ rest).getD 0 0) ((i.operands ++ rest).getD 1 0) = some i := by
  cases i <;> rfl

/-- What a successful decode says: the first byte is mapped and enough bytes follow. -/
theorem decode_ok {bs rest : List Byte} {i : Instr} (h : decode bs = .ok (i, rest)) :
    ∃ ir tl, bs = ir :: tl ∧ decodeBytes ir (tl.getD 0 0) (tl.getD 1 0) = some i ∧ operandCount ir ≤ tl.length ∧
      rest = tl.drop (operandCount ir) := by
  cases bs with
  | nil => simp [decode] at h
  | cons ir tl =>
    refine ⟨ir, tl, rfl, ?_⟩
    rw [decode] at h
    cases hd : decodeBytes ir (tl.getD 0 0) (tl.getD 1 0) with
    | none => rw [hd] at h; simp at h
    | some j =>
      rw [hd] at h
      by_cases hl : tl.length < operandCount ir
      · simp [hl] at h
      · simp only [hl, if_false, Except.ok.injEq, Prod.mk.injEq] at h
        exact ⟨congrArg some h.1, Nat.le_of_not_lt hl, h.2.symm⟩

/-- A sequence is rejected as unmapped exactly when the decoder knows no row for its first byte. -/
theorem decode_unmapped {ir : Byte} {rest : List Byte} :
    decode (ir :: rest) = .error (.unmapped ir) ↔ ir ∉ mappedOpcodes := by
  rw [decode]
  cases hd : decodeBytes ir (rest.getD 0 0) (rest.getD 1 0) with
  | none => simpa using decodeBytes_none_iff.mp hd
  | some j =>
    have : ir ∈ mappedOpcodes := by
      by_contra hm
      rw [decodeBytes_none_iff.mpr hm] at hd
      cases hd
    by_cases hl : rest.length < operandCount ir <;> simp [hl, this]

end Sys2Proof
end

