-- ==== Sys2Proof/Laws/State.lean ====
section
/-! SUPPORT. One lemma per field per update, so that no proof unfolds a record update. -/

namespace Sys2Proof.Machine

variable (s : State)

/-! ### writeReg -/

@[simp] theorem pc_writeReg (i : RegIndex) (v : Byte) : (s.writeReg i v).pc = s.pc := rfl
@[simp] theorem fl_writeReg (i : RegIndex) (v : Byte) : (s.writeReg i v).fl = s.fl := rfl
@[simp] theorem runState_writeReg (i : RegIndex) (v : Byte) : (s.writeReg i v).runState = s.runState := rfl
@[simp] theorem faultCause_writeReg (i : RegIndex) (v : Byte) : (s.writeReg i v).faultCause = s.faultCause := rfl
@[simp] theorem faultInfo_writeReg (i : RegIndex) (v : Byte) : (s.writeReg i v).faultInfo = s.faultInfo := rfl
@[simp] theorem mem_writeReg (i : RegIndex) (v : Byte) : (s.writeReg i v).mem = s.mem := rfl
@[simp] theorem out_writeReg (i : RegIndex) (v : Byte) : (s.writeReg i v).out = s.out := rfl

/-! ### setPc -/

@[simp] theorem regs_setPc (t : Byte) : (s.setPc t).regs = s.regs := rfl
@[simp] theorem pc_setPc (t : Byte) : (s.setPc t).pc = t := rfl
@[simp] theorem fl_setPc (t : Byte) : (s.setPc t).fl = s.fl := rfl
@[simp] theorem runState_setPc (t : Byte) : (s.setPc t).runState = s.runState := rfl
@[simp] theorem faultCause_setPc (t : Byte) : (s.setPc t).faultCause = s.faultCause := rfl
@[simp] theorem faultInfo_setPc (t : Byte) : (s.setPc t).faultInfo = s.faultInfo := rfl
@[simp] theorem mem_setPc (t : Byte) : (s.setPc t).mem = s.mem := rfl
@[simp] theorem out_setPc (t : Byte) : (s.setPc t).out = s.out := rfl

/-! ### setFl -/

@[simp] theorem regs_setFl (v : Byte) : (s.setFl v).regs = s.regs := rfl
@[simp] theorem pc_setFl (v : Byte) : (s.setFl v).pc = s.pc := rfl
@[simp] theorem fl_setFl (v : Byte) : (s.setFl v).fl = v := rfl
@[simp] theorem runState_setFl (v : Byte) : (s.setFl v).runState = s.runState := rfl
@[simp] theorem faultCause_setFl (v : Byte) : (s.setFl v).faultCause = s.faultCause := rfl
@[simp] theorem faultInfo_setFl (v : Byte) : (s.setFl v).faultInfo = s.faultInfo := rfl
@[simp] theorem mem_setFl (v : Byte) : (s.setFl v).mem = s.mem := rfl
@[simp] theorem out_setFl (v : Byte) : (s.setFl v).out = s.out := rfl

/-! ### halt -/

@[simp] theorem regs_halt : s.halt.regs = s.regs := rfl
@[simp] theorem pc_halt : s.halt.pc = s.pc := rfl
@[simp] theorem fl_halt : s.halt.fl = s.fl := rfl
@[simp] theorem runState_halt : s.halt.runState = .halted := rfl
@[simp] theorem faultCause_halt : s.halt.faultCause = s.faultCause := rfl
@[simp] theorem faultInfo_halt : s.halt.faultInfo = s.faultInfo := rfl
@[simp] theorem mem_halt : s.halt.mem = s.mem := rfl
@[simp] theorem out_halt : s.halt.out = s.out := rfl

/-! ### emit -/

@[simp] theorem regs_emit (e : OutEvent) : (s.emit e).regs = s.regs := rfl
@[simp] theorem pc_emit (e : OutEvent) : (s.emit e).pc = s.pc := rfl
@[simp] theorem fl_emit (e : OutEvent) : (s.emit e).fl = s.fl := rfl
@[simp] theorem runState_emit (e : OutEvent) : (s.emit e).runState = s.runState := rfl
@[simp] theorem faultCause_emit (e : OutEvent) : (s.emit e).faultCause = s.faultCause := rfl
@[simp] theorem faultInfo_emit (e : OutEvent) : (s.emit e).faultInfo = s.faultInfo := rfl
@[simp] theorem mem_emit (e : OutEvent) : (s.emit e).mem = s.mem := rfl
@[simp] theorem out_emit (e : OutEvent) : (s.emit e).out = s.out ++ [e] := rfl

/-! ### raise -/

@[simp] theorem regs_raise (c : FaultCause) (n : Nat) : (s.raise c n).regs = s.regs := rfl
@[simp] theorem pc_raise (c : FaultCause) (n : Nat) : (s.raise c n).pc = s.pc := rfl
@[simp] theorem fl_raise (c : FaultCause) (n : Nat) : (s.raise c n).fl = s.fl := rfl
@[simp] theorem runState_raise (c : FaultCause) (n : Nat) : (s.raise c n).runState = .faulted := rfl
@[simp] theorem faultCause_raise (c : FaultCause) (n : Nat) : (s.raise c n).faultCause = c := rfl
@[simp] theorem faultInfo_raise (c : FaultCause) (n : Nat) : (s.raise c n).faultInfo = n := rfl
@[simp] theorem mem_raise (c : FaultCause) (n : Nat) : (s.raise c n).mem = s.mem := rfl
@[simp] theorem out_raise (c : FaultCause) (n : Nat) : (s.raise c n).out = s.out := rfl

/-! ### storeByte -/

@[simp] theorem regs_storeByte (a v : Byte) : (s.storeByte a v).regs = s.regs := rfl
@[simp] theorem pc_storeByte (a v : Byte) : (s.storeByte a v).pc = s.pc := rfl
@[simp] theorem fl_storeByte (a v : Byte) : (s.storeByte a v).fl = s.fl := rfl
@[simp] theorem runState_storeByte (a v : Byte) : (s.storeByte a v).runState = s.runState := rfl
@[simp] theorem faultCause_storeByte (a v : Byte) : (s.storeByte a v).faultCause = s.faultCause := rfl
@[simp] theorem faultInfo_storeByte (a v : Byte) : (s.storeByte a v).faultInfo = s.faultInfo := rfl
@[simp] theorem mem_storeByte (a v : Byte) : (s.storeByte a v).mem = s.mem.write a.toNat v := rfl
@[simp] theorem out_storeByte (a v : Byte) : (s.storeByte a v).out = s.out := rfl

/-! ### Registers -/

@[simp] theorem readReg_writeReg_same (i : RegIndex) (v : Byte) : (s.writeReg i v).readReg i = v := by
  simp [State.readReg, State.writeReg]

@[simp] theorem readReg_writeReg_ne {i j : RegIndex} (v : Byte) (h : j ≠ i) :
    (s.writeReg i v).readReg j = s.readReg j := by
  have : i.val ≠ j.val := fun e => h (Fin.ext e.symm)
  simp [State.readReg, State.writeReg, Vector.getElem_set_ne _ _ this]

theorem readReg_writeReg (i j : RegIndex) (v : Byte) :
    (s.writeReg i v).readReg j = if j = i then v else s.readReg j := by
  split
  · subst j; simp
  · next h => simp [h]

/-! ### Reads through an update of something else -/

@[simp] theorem loadByte_writeReg (i : RegIndex) (v : Byte) (x : Byte) : (s.writeReg i v).loadByte x = s.loadByte x := rfl
@[simp] theorem flagE_writeReg (i : RegIndex) (v : Byte) : (s.writeReg i v).flagE = s.flagE := rfl
@[simp] theorem readReg_setPc (t : Byte) (j : RegIndex) : (s.setPc t).readReg j = s.readReg j := rfl
@[simp] theorem sp_setPc (t : Byte) : (s.setPc t).sp = s.sp := rfl
@[simp] theorem loadByte_setPc (t : Byte) (x : Byte) : (s.setPc t).loadByte x = s.loadByte x := rfl
@[simp] theorem flagE_setPc (t : Byte) : (s.setPc t).flagE = s.flagE := rfl
@[simp] theorem readReg_setFl (v : Byte) (j : RegIndex) : (s.setFl v).readReg j = s.readReg j := rfl
@[simp] theorem sp_setFl (v : Byte) : (s.setFl v).sp = s.sp := rfl
@[simp] theorem loadByte_setFl (v : Byte) (x : Byte) : (s.setFl v).loadByte x = s.loadByte x := rfl
@[simp] theorem readReg_halt (j : RegIndex) : s.halt.readReg j = s.readReg j := rfl
@[simp] theorem sp_halt : s.halt.sp = s.sp := rfl
@[simp] theorem loadByte_halt (x : Byte) : s.halt.loadByte x = s.loadByte x := rfl
@[simp] theorem flagE_halt : s.halt.flagE = s.flagE := rfl
@[simp] theorem readReg_emit (e : OutEvent) (j : RegIndex) : (s.emit e).readReg j = s.readReg j := rfl
@[simp] theorem sp_emit (e : OutEvent) : (s.emit e).sp = s.sp := rfl
@[simp] theorem loadByte_emit (e : OutEvent) (x : Byte) : (s.emit e).loadByte x = s.loadByte x := rfl
@[simp] theorem flagE_emit (e : OutEvent) : (s.emit e).flagE = s.flagE := rfl
@[simp] theorem readReg_raise (c : FaultCause) (n : Nat) (j : RegIndex) : (s.raise c n).readReg j = s.readReg j := rfl
@[simp] theorem sp_raise (c : FaultCause) (n : Nat) : (s.raise c n).sp = s.sp := rfl
@[simp] theorem loadByte_raise (c : FaultCause) (n : Nat) (x : Byte) : (s.raise c n).loadByte x = s.loadByte x := rfl
@[simp] theorem flagE_raise (c : FaultCause) (n : Nat) : (s.raise c n).flagE = s.flagE := rfl
@[simp] theorem readReg_storeByte (a v : Byte) (j : RegIndex) : (s.storeByte a v).readReg j = s.readReg j := rfl
@[simp] theorem sp_storeByte (a v : Byte) : (s.storeByte a v).sp = s.sp := rfl
@[simp] theorem flagE_storeByte (a v : Byte) : (s.storeByte a v).flagE = s.flagE := rfl

@[simp] theorem sp_writeReg_sp (v : Byte) : (s.writeReg Config.spIndex v).sp = v := readReg_writeReg_same s _ v

theorem sp_writeReg (i : RegIndex) (v : Byte) :
    (s.writeReg i v).sp = if Config.spIndex = i then v else s.sp := readReg_writeReg s i Config.spIndex v
end Sys2Proof.Machine
end

