-- ==== Sys2Proof/Laws/Memory.lean ====
section
/-! SUPPORT. The laws of memory: reads after writes, and the canonical form. -/

namespace Sys2Proof.Machine

variable (m : Memory)

@[simp] theorem Memory.read_nil (a : Nat) : Memory.read [] a = Config.memReset := rfl

theorem Memory.read_cons (c : Host.Cell) (a : Nat) :
    Memory.read (c :: m) a = if c.1 = a then c.2 else Memory.read m a := rfl

/-- An address no entry of memory lists holds the reset value. -/
theorem Memory.read_unlisted {m : Memory} {a : Nat} (h : ∀ c ∈ m, c.1 ≠ a) : m.read a = Config.memReset := by
  induction m with
  | nil => rfl
  | cons c m ih =>
    rw [Memory.read_cons, if_neg (h c (by simp))]
    exact ih fun d hd => h d (by simp [hd])

theorem Memory.erase_unlisted (a : Nat) : ∀ c ∈ m.erase a, c.1 ≠ a := by
  intro c hc
  simpa using (List.mem_filter.mp hc).2

theorem Memory.read_erase_ne {a b : Nat} (h : b ≠ a) : (m.erase a).read b = m.read b := by
  induction m with
  | nil => rfl
  | cons c m ih =>
    unfold Memory.erase at ih ⊢
    by_cases hc : c.1 = a
    · rw [List.filter_cons_of_neg (by simpa using hc), ih, Memory.read_cons, if_neg (by omega)]
    · rw [List.filter_cons_of_pos (by simpa using hc), Memory.read_cons, Memory.read_cons, ih]

theorem Memory.read_insert_same {m : Memory} {a : Nat} (v : Byte) (h : ∀ c ∈ m, c.1 ≠ a) :
    (Memory.insert a v m).read a = v := by
  induction m with
  | nil => simp [Memory.insert, Memory.read_cons]
  | cons c m ih =>
    unfold Memory.insert
    split
    · simp [Memory.read_cons]
    · rw [Memory.read_cons, if_neg (h c (by simp))]
      exact ih fun d hd => h d (by simp [hd])

theorem Memory.read_insert_ne {a b : Nat} (v : Byte) (h : b ≠ a) : (Memory.insert a v m).read b = m.read b := by
  induction m with
  | nil => simp [Memory.insert, Memory.read_cons, h.symm]
  | cons c m ih =>
    unfold Memory.insert
    split
    · rw [Memory.read_cons, if_neg h.symm]
    · rw [Memory.read_cons, Memory.read_cons, ih]

/-- A read of the address written gives the value written. -/
@[simp] theorem Memory.read_write_same (a : Nat) (v : Byte) : (m.write a v).read a = v := by
  unfold Memory.write
  split
  · next h => rw [h]; exact Memory.read_unlisted (m.erase_unlisted a)
  · exact Memory.read_insert_same v (m.erase_unlisted a)

/-- A write leaves every other address alone. -/
theorem Memory.read_write_ne {a b : Nat} (v : Byte) (h : b ≠ a) : (m.write a v).read b = m.read b := by
  unfold Memory.write
  split
  · exact m.read_erase_ne h
  · rw [Memory.read_insert_ne _ v h, m.read_erase_ne h]

theorem Memory.read_write (a b : Nat) (v : Byte) : (m.write a v).read b = if b = a then v else m.read b := by
  split
  · next h => rw [h, Memory.read_write_same]
  · next h => exact m.read_write_ne v h

/-! ### Canonical form -/

theorem Memory.nil_wf : Memory.wf [] := by simp [Memory.wf]

theorem Memory.erase_wf {m : Memory} (h : m.wf) (a : Nat) : (m.erase a).wf :=
  ⟨h.1.sublist List.filter_sublist, fun c hc => h.2 c (List.mem_filter.mp hc).1⟩

theorem Memory.mem_insert {m : Memory} {a : Nat} {v : Byte} {c : Host.Cell} (h : c ∈ Memory.insert a v m) :
    c = (a, v) ∨ c ∈ m := by
  induction m with
  | nil => simpa [Memory.insert] using h
  | cons d m ih =>
    unfold Memory.insert at h
    split at h
    · simpa using h
    · rcases List.mem_cons.mp h with h | h
      · simp [h]
      · rcases ih h with h | h <;> simp [h]

theorem Memory.insert_wf {m : Memory} (h : m.wf) {a : Nat} {v : Byte} (hm : ∀ c ∈ m, c.1 ≠ a)
    (ha : a ≤ 255) (hv : v ≠ Config.memReset) : (Memory.insert a v m).wf := by
  constructor
  · induction m with
    | nil => simp [Memory.insert]
    | cons c m ih =>
      have ⟨hlt, hp⟩ := List.pairwise_cons.mp h.1
      unfold Memory.insert
      split
      · next hac =>
        refine List.pairwise_cons.mpr ⟨fun d hd => ?_, h.1⟩
        rcases List.mem_cons.mp hd with hd | hd
        · simpa [hd] using hac
        · exact Nat.lt_trans hac (hlt d hd)
      · next hac =>
        have hne := hm c (by simp)
        refine List.pairwise_cons.mpr ⟨fun d hd => ?_, ih ⟨hp, fun d hd => h.2 d (by simp [hd])⟩
          fun d hd => hm d (by simp [hd])⟩
        rcases Memory.mem_insert hd with hd | hd
        · rw [hd]; exact Nat.lt_of_le_of_ne (Nat.le_of_not_lt hac) hne
        · exact hlt d hd
  · intro c hc
    rcases Memory.mem_insert hc with hc | hc
    · subst hc; exact ⟨ha, hv⟩
    · exact h.2 c hc

/-- Every write to an existing address keeps the canonical form. -/
theorem Memory.write_wf {m : Memory} (h : m.wf) {a : Nat} (ha : a ≤ 255) (v : Byte) :
    (m.write a v).wf := by
  unfold Memory.write
  split
  · exact Memory.erase_wf h a
  · next hv => exact Memory.insert_wf (Memory.erase_wf h a) (m.erase_unlisted a) ha hv

theorem Memory.place_wf {m : Memory} (h : m.wf) (a : Nat) (bs : List Byte) : (m.place a bs).wf := by
  induction bs generalizing m a with
  | nil => exact h
  | cons b bs ih =>
    unfold Memory.place
    split
    · next ha => exact ih (Memory.write_wf h ha b) _
    · exact ih h _

/-- Placing bytes that fit in memory writes each of them, in order, and nothing else. -/
theorem Memory.read_place (bs : List Byte) (m : Memory) (a : Nat) (h : a + bs.length ≤ 256) :
    (∀ i (hi : i < bs.length), (m.place a bs).read (a + i) = bs[i]) ∧
    ∀ x, x < a ∨ a + bs.length ≤ x → (m.place a bs).read x = m.read x := by
  induction bs generalizing m a with
  | nil => exact ⟨fun i hi => absurd hi (by simp), fun _ _ => rfl⟩
  | cons b bs ih =>
    simp only [List.length_cons] at h ⊢
    obtain ⟨h1, h2⟩ := ih (m.write a b) (a + 1) (by omega)
    rw [Memory.place, if_pos (by omega : a ≤ 255)]
    refine ⟨fun i hi => ?_, fun x hx => ?_⟩
    · cases i with
      | zero => rw [h2 (a + 0) (by omega)]; simp
      | succ i => rw [show a + (i + 1) = a + 1 + i by omega, h1 i (by omega)]; simp
    · rw [h2 x (by omega), m.read_write_ne b (by omega)]

/-- Two memories in canonical form that read alike are the same data. -/
theorem Memory.wf_ext {m n : Memory} (hm : m.wf) (hn : n.wf) (h : ∀ a, m.read a = n.read a) : m = n := by
  have below : ∀ {c : Host.Cell} {l : Memory} {a : Nat}, Memory.wf (c :: l) → a < c.1 →
      Memory.read (c :: l) a = Config.memReset := by
    intro c l a hw ha
    refine Memory.read_unlisted fun d hd => ?_
    rcases List.mem_cons.mp hd with hd | hd
    · rw [hd]; omega
    · have := (List.pairwise_cons.mp hw.1).1 d hd; omega
  have head : ∀ {c : Host.Cell} {l : Memory}, Memory.read (c :: l) c.1 = c.2 := by
    intro c l; simp [Memory.read_cons]
  have tail : ∀ {c : Host.Cell} {l : Memory}, Memory.wf (c :: l) → Memory.wf l := fun hw =>
    ⟨(List.pairwise_cons.mp hw.1).2, fun d hd => hw.2 d (by simp [hd])⟩
  induction m generalizing n with
  | nil =>
    cases n with
    | nil => rfl
    | cons d n => exact absurd ((h d.1).trans head).symm (hn.2 d (by simp)).2
  | cons c m ih =>
    cases n with
    | nil => exact absurd (head.symm.trans (h c.1)) (hm.2 c (by simp)).2
    | cons d n =>
      have hcd : c.1 = d.1 := by
        rcases Nat.lt_trichotomy c.1 d.1 with hlt | heq | hlt
        · exact absurd (head.symm.trans ((h c.1).trans (below hn hlt))) (hm.2 c (by simp)).2
        · exact heq
        · exact absurd (((h d.1).trans head).symm.trans (below hm hlt)) (hn.2 d (by simp)).2
      have hv : c.2 = d.2 := head.symm.trans ((h c.1).trans (hcd ▸ head))
      have hrest : m = n := by
        refine ih (tail hm) (tail hn) fun a => ?_
        by_cases ha : c.1 = a
        · have unlisted : ∀ {e : Host.Cell} {l : Memory}, Memory.wf (e :: l) → e.1 = a →
              Memory.read l a = Config.memReset := by
            intro e l hw he
            refine Memory.read_unlisted fun x hx => ?_
            have := (List.pairwise_cons.mp hw.1).1 x hx
            omega
          rw [unlisted hm ha, unlisted hn (hcd ▸ ha)]
        · have := h a
          rwa [Memory.read_cons, if_neg ha, Memory.read_cons, if_neg (hcd ▸ ha)] at this
      rw [hrest, Prod.ext hcd hv]

end Sys2Proof.Machine
end

