-- ==== Sys2Proof/Laws/Ops.lean ====
section
/-! SUPPORT. What each shared operation does, said once; the meanings' proofs cite these. -/

namespace Sys2Proof.Machine

variable (s : State)

/-! ### Register operands -/

theorem regIdx_some {b : Byte} (h : b.toNat < 8) : regIdx b = some ⟨b.toNat, h⟩ := by
  simp [regIdx, h]

theorem regIdx_none {b : Byte} (h : ¬ b.toNat < 8) : regIdx b = none := by
  simp [regIdx, h]

theorem toNat_regByte (i : RegIndex) : (regByte i).toNat = i.val := by
  have := i.isLt
  simp only [regByte, BitVec.toNat_ofNat]
  omega

@[simp] theorem regIdx_regByte (i : RegIndex) : regIdx (regByte i) = some i := by
  have h : (regByte i).toNat < 8 := by rw [toNat_regByte]; exact i.isLt
  rw [regIdx_some h]
  exact congrArg some (Fin.ext (toNat_regByte i))

/-- An operand byte that names a register is that register's byte. -/
theorem regByte_of_lt {b : Byte} (h : b.toNat < 8) : regByte ⟨b.toNat, h⟩ = b :=
  BitVec.eq_of_toNat_eq (toNat_regByte _)

@[simp] theorem withReg_regByte (i : RegIndex) (rest : RegIndex → State) :
    withReg (regByte i) s rest = rest i := by simp [withReg]

/-- A register operand above 7 raises RegisterIndexFault and the rest of the instruction does not run. -/
theorem withReg_bad {b : Byte} (h : 7 < b.toNat) (rest : RegIndex → State) :
    withReg b s rest = s.raise .registerIndex b.toNat := by
  simp [withReg, regIdx_none (by omega : ¬ b.toNat < 8)]

/-- All `withReg` can do. -/
theorem withReg_cases (b : Byte) (rest : RegIndex → State) :
    (∃ a : RegIndex, b = regByte a ∧ withReg b s rest = rest a) ∨
    (7 < b.toNat ∧ withReg b s rest = s.raise .registerIndex b.toNat) := by
  by_cases h : b.toNat < 8
  · exact .inl ⟨⟨b.toNat, h⟩, (regByte_of_lt h).symm, by simp [withReg, regIdx_some h]⟩
  · exact .inr ⟨by omega, withReg_bad s (by omega) rest⟩

/-! ### The advance -/

theorem advance_ok {k : Nat} (h : s.pc.toNat + k ≤ 255) :
    s.advance k = s.setPc (BitVec.ofNat 8 (s.pc.toNat + k)) := by simp [State.advance, h]

theorem advance_past {k : Nat} (h : 255 < s.pc.toNat + k) : s.advance k = s.raise .address (s.pc.toNat + k) := by
  simp [State.advance, show ¬ s.pc.toNat + k ≤ 255 by omega]

/-- All `advance` can do. -/
theorem advance_cases (k : Nat) :
    (s.pc.toNat + k ≤ 255 ∧ s.advance k = s.setPc (BitVec.ofNat 8 (s.pc.toNat + k))) ∨
    (255 < s.pc.toNat + k ∧ s.advance k = s.raise .address (s.pc.toNat + k)) := by
  by_cases h : s.pc.toNat + k ≤ 255
  · exact .inl ⟨h, advance_ok s h⟩
  · exact .inr ⟨by omega, advance_past s (by omega)⟩

@[simp] theorem regs_advance (k : Nat) : (s.advance k).regs = s.regs := by
  rcases advance_cases s k with ⟨_, h⟩ | ⟨_, h⟩ <;> simp [h]

@[simp] theorem readReg_advance (k : Nat) (i : RegIndex) : (s.advance k).readReg i = s.readReg i := by
  rcases advance_cases s k with ⟨_, h⟩ | ⟨_, h⟩ <;> simp [h]

@[simp] theorem sp_advance (k : Nat) : (s.advance k).sp = s.sp := readReg_advance s k Config.spIndex

@[simp] theorem fl_advance (k : Nat) : (s.advance k).fl = s.fl := by
  rcases advance_cases s k with ⟨_, h⟩ | ⟨_, h⟩ <;> simp [h]

@[simp] theorem mem_advance (k : Nat) : (s.advance k).mem = s.mem := by
  rcases advance_cases s k with ⟨_, h⟩ | ⟨_, h⟩ <;> simp [h]

@[simp] theorem out_advance (k : Nat) : (s.advance k).out = s.out := by
  rcases advance_cases s k with ⟨_, h⟩ | ⟨_, h⟩ <;> simp [h]

/-- `advance` is the relation the claims use, seen from any state with the same `pc`, run state and fault registers. -/
theorem advancedBy_advance {t : State} (k : Nat) (hpc : t.pc = s.pc) (hrun : SameRun s t) :
    AdvancedBy k s (t.advance k) := by
  constructor
  · intro h
    rw [advance_ok t (by rw [hpc]; omega), hpc]
    refine ⟨?_, hrun⟩
    simp only [pc_setPc, BitVec.toNat_ofNat]
    omega
  · intro h
    rw [advance_past t (by rw [hpc]; omega), hpc]
    exact ⟨hpc, rfl, rfl, rfl⟩

/-! ### Memory and stack -/

theorem memRead_ok {a : Nat} (h : a ≤ 255) : s.memRead a = .ok (s.mem.read a) := by
  simp [State.memRead, h]

theorem memRead_past {a : Nat} (h : 255 < a) : s.memRead a = .error a := by
  simp [State.memRead, show ¬ a ≤ 255 by omega]

/-- A read at an 8-bit address never faults (20_memory.md R43). -/
theorem memRead_byte (a : Byte) : s.memRead a.toNat = .ok (s.loadByte a) := memRead_ok s (Nat.le_of_lt_succ a.isLt)

/-- A write at an 8-bit address never faults (20_memory.md R42). -/
theorem memWrite_byte (a v : Byte) : s.memWrite a.toNat v = .ok (s.storeByte a v) := by
  have : a.toNat ≤ 255 := Nat.le_of_lt_succ a.isLt
  simp [State.memWrite, State.storeByte, this]

@[simp] theorem loadByte_storeByte_same (a v : Byte) : (s.storeByte a v).loadByte a = v := by
  simp [State.loadByte]

theorem loadByte_storeByte_ne {a b : Byte} (v : Byte) (h : b ≠ a) : (s.storeByte a v).loadByte b = s.loadByte b :=
  Memory.read_write_ne _ v fun e => h (BitVec.eq_of_toNat_eq e)

theorem toNat_pushAddr : s.pushAddr.toNat = (s.sp.toNat + 255) % 256 := by
  simp only [State.pushAddr, BitVec.toNat_sub]
  have : (1#8 : BitVec 8).toNat = 1 := rfl
  omega

@[simp] theorem sp_push (v : Byte) : (s.push v).sp = s.pushAddr := by simp [State.push]

@[simp] theorem readReg_push (v : Byte) (i : RegIndex) :
    (s.push v).readReg i = if i = Config.spIndex then s.pushAddr else s.readReg i := by
  simp [State.push, readReg_writeReg]

@[simp] theorem mem_push (v : Byte) : (s.push v).mem = s.mem.write s.pushAddr.toNat v := rfl
@[simp] theorem pc_push (v : Byte) : (s.push v).pc = s.pc := rfl
@[simp] theorem fl_push (v : Byte) : (s.push v).fl = s.fl := rfl
@[simp] theorem flagE_push (v : Byte) : (s.push v).flagE = s.flagE := rfl
@[simp] theorem out_push (v : Byte) : (s.push v).out = s.out := rfl
@[simp] theorem runState_push (v : Byte) : (s.push v).runState = s.runState := rfl
@[simp] theorem faultCause_push (v : Byte) : (s.push v).faultCause = s.faultCause := rfl
@[simp] theorem faultInfo_push (v : Byte) : (s.push v).faultInfo = s.faultInfo := rfl

@[simp] theorem loadByte_push_same (v : Byte) : (s.push v).loadByte s.pushAddr = v := by
  simp [State.loadByte]

theorem sameMemExcept_push (v : Byte) : SameMemExcept s.pushAddr s (s.push v) := fun _ h => s.mem.read_write_ne v h

@[simp] theorem sp_popState : s.popState.sp = s.sp + 1#8 := by simp [State.popState]

@[simp] theorem readReg_popState (i : RegIndex) :
    s.popState.readReg i = if i = Config.spIndex then s.sp + 1#8 else s.readReg i := by
  simp [State.popState, readReg_writeReg]

@[simp] theorem mem_popState : s.popState.mem = s.mem := rfl
@[simp] theorem pc_popState : s.popState.pc = s.pc := rfl
@[simp] theorem fl_popState : s.popState.fl = s.fl := rfl
@[simp] theorem out_popState : s.popState.out = s.out := rfl
@[simp] theorem runState_popState : s.popState.runState = s.runState := rfl
@[simp] theorem faultCause_popState : s.popState.faultCause = s.faultCause := rfl
@[simp] theorem faultInfo_popState : s.popState.faultInfo = s.faultInfo := rfl

/-! ### The output -/

@[simp] theorem line_print (v : Byte) : (OutEvent.print v).line = toString v.toNat := rfl

/-! ### The ALU -/

theorem alu_add (va vb : Byte) : alu 0xA0#8 va vb = .value (aluAdd va vb) := rfl
theorem alu_sub (va vb : Byte) : alu 0xA1#8 va vb = .value (aluSub va vb) := rfl
theorem alu_mul (va vb : Byte) : alu 0xA2#8 va vb = .value (aluMul va vb) := rfl
theorem alu_div (va vb : Byte) :
    alu 0xA3#8 va vb = if vb.toNat = 0 then .zeroDivisor else .value (aluDiv va vb) := rfl
theorem alu_and (va vb : Byte) : alu 0xA8#8 va vb = .value (aluAnd va vb) := rfl
theorem alu_or (va vb : Byte) : alu 0xAA#8 va vb = .value (aluOr va vb) := rfl
theorem alu_xor (va vb : Byte) : alu 0xAB#8 va vb = .value (aluXor va vb) := rfl
theorem alu_shl (va vb : Byte) : alu 0xAC#8 va vb = .value (aluShl va vb) := rfl
theorem alu_inc (va vb : Byte) : alu 0x65#8 va vb = .value (aluInc va) := rfl
theorem alu_dec (va vb : Byte) : alu 0x66#8 va vb = .value (aluDec va) := rfl
theorem alu_cmp (va vb : Byte) : alu 0xA7#8 va vb = .flags (compareFlags va vb) := rfl

/-- The only flags the ALU gives are CMP's. -/
theorem alu_flags {id va vb f : Byte} (h : alu id va vb = .flags f) : id = 0xA7#8 ∧ f = compareFlags va vb := by
  unfold alu at h
  split at h
  · next r hr =>
    have hid : r.id = id := by simpa using List.find?_some hr
    have key : ∀ r ∈ aluTable, r.op va vb = .flags f → r.id = 0xA7#8 ∧ f = compareFlags va vb := by
      simp only [aluTable, List.mem_cons, List.not_mem_nil, or_false]
      rintro r (rfl | rfl | rfl | rfl | rfl | rfl | rfl | rfl | rfl | rfl | rfl) h
      case inr.inr.inr.inl => dsimp only at h; split at h <;> cases h
      all_goals (cases h; try exact ⟨rfl, rfl⟩)
    obtain ⟨h1, h2⟩ := key r (List.mem_of_find?_eq_some hr) h
    exact ⟨hid.symm.trans h1, h2⟩
  · cases h

/-- An identifier outside the table is unsupported. -/
theorem alu_unsupported {id : Byte} (va vb : Byte) (h : id ∉ aluTable.map AluRow.id) : alu id va vb = .unsupported := by
  have : (aluTable.find? fun r => r.id == id) = none := by simpa using h
  simp only [alu, this]

theorem compareFlags_legal (va vb : Byte) :
    compareFlags va vb = 0x01#8 ∨ compareFlags va vb = 0x02#8 ∨ compareFlags va vb = 0x04#8 := by
  unfold compareFlags
  split
  · simp
  · split <;> simp

/-- All a two-register ALU instruction can do. -/
theorem aluTwoReg_cases (id opa opb : Byte) :
    (7 < opa.toNat ∧ aluTwoReg id opa opb s = s.raise .registerIndex opa.toNat) ∨
    (opa.toNat ≤ 7 ∧ 7 < opb.toNat ∧ aluTwoReg id opa opb s = s.raise .registerIndex opb.toNat) ∨
    (∃ a b : RegIndex, opa = regByte a ∧ opb = regByte b ∧
      aluTwoReg id opa opb s = aluRun id a (s.readReg a) (s.readReg b) 3 s) := by
  unfold aluTwoReg
  rcases withReg_cases s opa (fun a => withReg opb s fun b => aluRun id a (s.readReg a) (s.readReg b) 3 s)
    with ⟨a, ha, h⟩ | ⟨ha, h⟩
  · rcases withReg_cases s opb (fun b => aluRun id a (s.readReg a) (s.readReg b) 3 s) with ⟨b, hb, h'⟩ | ⟨hb, h'⟩
    · exact .inr (.inr ⟨a, b, ha, hb, h.trans h'⟩)
    · refine .inr (.inl ⟨?_, hb, h.trans h'⟩)
      have := a.isLt
      rw [ha, toNat_regByte]
      omega
  · exact .inl ⟨ha, h⟩

end Sys2Proof.Machine
end

