-- ==== Sys2Proof/Laws/Step.lean ====
section
/-! SUPPORT. What fetch and step can do, said once. -/

namespace Sys2Proof.Machine

variable {s t : State}

/-- A fetch inside memory gives the three bytes at `pc`. -/
theorem fetch_ok (h : s.pc.toNat ≤ 253) :
    fetch s = .ok ⟨s.loadByte s.pc, s.mem.read (s.pc.toNat + 1), s.mem.read (s.pc.toNat + 2)⟩ := by
  simp [fetch, memRead_byte, memRead_ok s (show s.pc.toNat + 1 ≤ 255 by omega),
    memRead_ok s (show s.pc.toNat + 2 ≤ 255 by omega)]

/-- The prefetch of the top two addresses meets address 256 (40_instruction_cycle.md R82). -/
theorem fetch_top (h : 254 ≤ s.pc.toNat) : fetch s = .error 256 := by
  have hlt : s.pc.toNat < 256 := s.pc.isLt
  rcases Nat.lt_or_ge s.pc.toNat 255 with h' | h'
  · have e : s.pc.toNat = 254 := by omega
    simp [fetch, e, memRead_ok s (show 254 ≤ 255 by omega), memRead_ok s (Nat.le_refl 255),
      memRead_past s (show 255 < 256 by omega)]
  · have e : s.pc.toNat = 255 := by omega
    simp [fetch, e, memRead_ok s (Nat.le_refl 255), memRead_past s (show 255 < 256 by omega)]

/-- All a step that answers a next state can have done: a prefetch fault, a skip, or one instruction. -/
theorem step_next (h : step s = .next t) :
    s.runState = .running ∧
    ((254 ≤ s.pc.toNat ∧ t = s.raise .address 256) ∨
     (s.pc.toNat ≤ 253 ∧ s.loadByte s.pc ∉ mappedOpcodes ∧ t = skipUnmapped (s.loadByte s.pc) s) ∨
     (s.pc.toNat ≤ 253 ∧ ∃ i, decodeBytes (s.loadByte s.pc) (s.mem.read (s.pc.toNat + 1))
        (s.mem.read (s.pc.toNat + 2)) = some i ∧ exec i s = .next t)) := by
  unfold step at h
  cases hr : s.runState with
  | halted => rw [hr] at h; cases h
  | faulted => rw [hr] at h; cases h
  | running =>
    refine ⟨rfl, ?_⟩
    rw [hr] at h
    by_cases hp : s.pc.toNat ≤ 253
    · rw [fetch_ok hp] at h
      simp only [selectInstr] at h
      cases hd : decodeBytes (s.loadByte s.pc) (s.mem.read (s.pc.toNat + 1)) (s.mem.read (s.pc.toNat + 2)) with
      | none =>
        rw [hd] at h
        exact .inr (.inl ⟨hp, decodeBytes_none_iff.mp hd, by cases h; rfl⟩)
      | some i =>
        rw [hd] at h
        exact .inr (.inr ⟨hp, i, rfl, h⟩)
    · rw [fetch_top (by omega)] at h
      exact .inl ⟨by omega, by cases h; rfl⟩

end Sys2Proof.Machine
end

