-- ==== Sys2Proof/Laws/Exec.lean ====
section
/-! SUPPORT. What an instruction can do to the state, said once: a case analysis of `exec` that invariants and
whole-machine claims cite instead of unfolding every meaning. -/

namespace Sys2Proof.Machine

/-- A property of what `withReg` gives holds when it holds of the fault and of every register. -/
theorem withReg_property {s : State} {P : State → Prop} (b : Byte) {rest : RegIndex → State}
    (bad : 7 < b.toNat → P (s.raise .registerIndex b.toNat)) (good : ∀ a, P (rest a)) : P (withReg b s rest) := by
  rcases withReg_cases s b rest with ⟨a, _, e⟩ | ⟨hb, e⟩
  · rw [e]; exact good a
  · rw [e]; exact bad hb

/-- What each of the ALU's eleven identifiers can give. -/
theorem aluTable_result (va vb : Byte) : ∀ r ∈ aluTable,
    (∃ v, r.op va vb = .value v) ∨ (r.id = 0xA7#8 ∧ r.op va vb = .flags (compareFlags va vb)) ∨
    (r.id = 0xA3#8 ∧ r.op va vb = .zeroDivisor) := by
  have div : (∃ v, (if vb.toNat = 0 then AluResult.zeroDivisor else .value (aluDiv va vb)) = .value v) ∨
      (if vb.toNat = 0 then AluResult.zeroDivisor else .value (aluDiv va vb)) = .zeroDivisor := by
    by_cases h : vb.toNat = 0
    · exact .inr (if_pos h)
    · exact .inl ⟨_, if_neg h⟩
  simp only [aluTable, List.mem_cons, List.not_mem_nil, or_false]
  rintro r (rfl | rfl | rfl | rfl | rfl | rfl | rfl | rfl | rfl | rfl | rfl)
  case inr.inr.inr.inl => exact div.imp id fun h => .inr ⟨rfl, h⟩
  case inr.inr.inr.inr.inr.inr.inr.inr.inr.inr => exact .inr (.inl ⟨rfl, rfl⟩)
  all_goals exact .inl ⟨_, rfl⟩

/-- A property of what an ALU operation gives holds when it holds of a register write, of CMP's flag write and of DIV's
fault. -/
theorem aluRun_property {s : State} {P : State → Prop} {id : Byte} (a : RegIndex) (va vb : Byte) (k : Nat)
    (known : id ∈ aluTable.map AluRow.id) (value : ∀ v, P ((s.writeReg a v).advance k))
    (flags : id = 0xA7#8 → P ((s.setFl (compareFlags va vb)).advance k))
    (zero : id = 0xA3#8 → P (s.raise .divideByZero s.pc.toNat)) : P (aluRun id a va vb k s) := by
  have hsome : (aluTable.find? fun r => r.id == id).isSome := by simpa using known
  obtain ⟨r, hr⟩ := Option.isSome_iff_exists.mp hsome
  have hid : r.id = id := by simpa using List.find?_some hr
  have halu : alu id va vb = r.op va vb := by simp only [alu, hr]
  rcases aluTable_result va vb r (List.mem_of_find?_eq_some hr) with ⟨v, h⟩ | ⟨hi, h⟩ | ⟨hi, h⟩ <;>
    simp only [aluRun, halu, h]
  · exact value v
  · exact flags (hid.symm.trans hi)
  · exact zero (hid.symm.trans hi)

/-- All an instruction can do. A property of the state it answers holds when it holds of each of these; the opcode byte
says which instruction each is of, where only one does it. -/
theorem exec_property {P : State → Prop} {i : Instr} {s t : State} (h : exec i s = .next t)
    (badRegister : ∀ b : Byte, 7 < b.toNat → P (s.raise .registerIndex b.toNat))
    (divideByZero : i.opcode = 0xA3#8 → P (s.raise .divideByZero s.pc.toNat))
    (hlt : i.opcode = 0x01#8 → P (s.halt.advance 1))
    (ret : i.opcode = 0x11#8 → P (s.popState.setPc s.popValue))
    (psh : ∀ v, i.opcode = 0x45#8 → P ((s.push v).advance 2))
    (pop : ∀ a, i.opcode = 0x46#8 → P ((s.popState.writeReg a s.popValue).advance 2))
    (prn : ∀ a, i.opcode = 0x47#8 → P ((s.emit (.print (s.readReg a))).advance 2))
    (call : ∀ p, i.opcode = 0x50#8 → P ((s.push (s.pc + 2#8)).setPc p))
    (jump : ∀ a, P (s.setPc (s.readReg a)))
    (notTaken : P (s.advance 2))
    (write : ∀ a v k, k = 2 ∨ k = 3 → P ((s.writeReg a v).advance k))
    (cmp : ∀ va vb, i.opcode = 0xA7#8 → P ((s.setFl (compareFlags va vb)).advance 3)) : P t := by
  have reg : ∀ b {rest : RegIndex → State}, (∀ a, P (rest a)) → P (withReg b s rest) := fun b _ good =>
    withReg_property b (badRegister b) good
  have one : ∀ op a, op ∈ aluTable.map AluRow.id → op ≠ 0xA7#8 → op ≠ 0xA3#8 → P (aluOneReg op a s) :=
    fun op a known n1 n2 => reg a fun x => aluRun_property x _ _ 2 known (fun v => write _ _ _ (.inl rfl))
      (fun e => absurd e n1) (fun e => absurd e n2)
  have two : ∀ op a b, op ∈ aluTable.map AluRow.id → i.opcode = op → P (aluTwoReg op a b s) :=
    fun op a b known hop => reg a fun x => reg b fun y => aluRun_property x _ _ 3 known
      (fun v => write _ _ _ (.inr rfl)) (fun e => cmp _ _ (hop.trans e)) (fun e => divideByZero (hop.trans e))
  have jumpIf : ∀ c a, P (jumpIf c a s) := by
    intro c a
    refine reg a fun x => ?_
    cases c
    · exact notTaken
    · exact jump x
  cases i <;> cases h
  case hlt => exact hlt rfl
  case ret => exact ret rfl
  case psh => exact reg _ fun a => psh _ rfl
  case pop => exact reg _ fun a => pop a rfl
  case prn => exact reg _ fun a => prn a rfl
  case call => exact reg _ fun a => call _ rfl
  case jmp => exact jumpIf _ _
  case jeq => exact jumpIf _ _
  case jne => exact jumpIf _ _
  case inc => exact one _ _ (by decide) (by decide) (by decide)
  case dec => exact one _ _ (by decide) (by decide) (by decide)
  case ldi => exact reg _ fun a => write a _ _ (.inr rfl)
  all_goals exact two _ _ _ (by decide) rfl

end Sys2Proof.Machine
end

