-- ==== Sys2Proof/Laws/PerInstr.lean ====
section
/-! SUPPORT. A law of every instruction's encoding, one lemma per constructor: the encoding is one to three bytes, its
length is told by bits 7:6 of the first (30_encoding.md R60), and bit 4 of the first is set for exactly the five control
transfers (R65). -/

namespace Sys2Proof.Laws.EncodedShape

/-- The five instructions that set the program counter themselves (40_instruction_cycle.md R86). -/
def isTransfer : Instr → Bool
  | .ret | .call _ | .jmp _ | .jeq _ | .jne _ => true
  | .hlt | .psh _ | .pop _ | .prn _ | .inc _ | .dec _ | .ldi _ _ | .add _ _ | .sub _ _ | .mul _ _ | .div _ _
  | .cmp _ _ | .and _ _ | .or _ _ | .xor _ _ | .shl _ _ => false

/-- The shape of an instruction's encoding. -/
def Statement (i : Instr) : Prop :=
  (encode i).length = 1 + operandCount i.opcode ∧ (encode i).length ≤ 3 ∧ i.opcode ∈ mappedOpcodes ∧
  setsPc i.opcode = isTransfer i

/-- The length is told by the opcode byte's operand count field. -/
theorem length_encode (i : Instr) : (encode i).length = 1 + operandCount i.opcode := by
  rw [operandCount_opcode, Nat.add_comm]; rfl

theorem hlt : Statement .hlt := ⟨length_encode _, by decide, by decide, by decide⟩

theorem ret : Statement .ret := ⟨length_encode _, by decide, by decide, by decide⟩

theorem psh (a : Byte) : Statement (.psh a) :=
  ⟨length_encode _, Nat.le_of_ble_eq_true rfl, by simp [mappedOpcodes, opTable, Instr.opcode], by simp [setsPc, Instr.opcode, isTransfer]⟩

theorem pop (a : Byte) : Statement (.pop a) :=
  ⟨length_encode _, Nat.le_of_ble_eq_true rfl, by simp [mappedOpcodes, opTable, Instr.opcode], by simp [setsPc, Instr.opcode, isTransfer]⟩

theorem prn (a : Byte) : Statement (.prn a) :=
  ⟨length_encode _, Nat.le_of_ble_eq_true rfl, by simp [mappedOpcodes, opTable, Instr.opcode], by simp [setsPc, Instr.opcode, isTransfer]⟩

theorem call (a : Byte) : Statement (.call a) :=
  ⟨length_encode _, Nat.le_of_ble_eq_true rfl, by simp [mappedOpcodes, opTable, Instr.opcode], by simp [setsPc, Instr.opcode, isTransfer]⟩

theorem jmp (a : Byte) : Statement (.jmp a) :=
  ⟨length_encode _, Nat.le_of_ble_eq_true rfl, by simp [mappedOpcodes, opTable, Instr.opcode], by simp [setsPc, Instr.opcode, isTransfer]⟩

theorem jeq (a : Byte) : Statement (.jeq a) :=
  ⟨length_encode _, Nat.le_of_ble_eq_true rfl, by simp [mappedOpcodes, opTable, Instr.opcode], by simp [setsPc, Instr.opcode, isTransfer]⟩

theorem jne (a : Byte) : Statement (.jne a) :=
  ⟨length_encode _, Nat.le_of_ble_eq_true rfl, by simp [mappedOpcodes, opTable, Instr.opcode], by simp [setsPc, Instr.opcode, isTransfer]⟩

theorem inc (a : Byte) : Statement (.inc a) :=
  ⟨length_encode _, Nat.le_of_ble_eq_true rfl, by simp [mappedOpcodes, opTable, Instr.opcode], by simp [setsPc, Instr.opcode, isTransfer]⟩

theorem dec (a : Byte) : Statement (.dec a) :=
  ⟨length_encode _, Nat.le_of_ble_eq_true rfl, by simp [mappedOpcodes, opTable, Instr.opcode], by simp [setsPc, Instr.opcode, isTransfer]⟩

theorem ldi (a v : Byte) : Statement (.ldi a v) :=
  ⟨length_encode _, Nat.le_of_ble_eq_true rfl, by simp [mappedOpcodes, opTable, Instr.opcode], by simp [setsPc, Instr.opcode, isTransfer]⟩

theorem add (a b : Byte) : Statement (.add a b) :=
  ⟨length_encode _, Nat.le_of_ble_eq_true rfl, by simp [mappedOpcodes, opTable, Instr.opcode], by simp [setsPc, Instr.opcode, isTransfer]⟩

theorem sub (a b : Byte) : Statement (.sub a b) :=
  ⟨length_encode _, Nat.le_of_ble_eq_true rfl, by simp [mappedOpcodes, opTable, Instr.opcode], by simp [setsPc, Instr.opcode, isTransfer]⟩

theorem mul (a b : Byte) : Statement (.mul a b) :=
  ⟨length_encode _, Nat.le_of_ble_eq_true rfl, by simp [mappedOpcodes, opTable, Instr.opcode], by simp [setsPc, Instr.opcode, isTransfer]⟩

theorem div (a b : Byte) : Statement (.div a b) :=
  ⟨length_encode _, Nat.le_of_ble_eq_true rfl, by simp [mappedOpcodes, opTable, Instr.opcode], by simp [setsPc, Instr.opcode, isTransfer]⟩

theorem cmp (a b : Byte) : Statement (.cmp a b) :=
  ⟨length_encode _, Nat.le_of_ble_eq_true rfl, by simp [mappedOpcodes, opTable, Instr.opcode], by simp [setsPc, Instr.opcode, isTransfer]⟩

theorem and (a b : Byte) : Statement (.and a b) :=
  ⟨length_encode _, Nat.le_of_ble_eq_true rfl, by simp [mappedOpcodes, opTable, Instr.opcode], by simp [setsPc, Instr.opcode, isTransfer]⟩

theorem or (a b : Byte) : Statement (.or a b) :=
  ⟨length_encode _, Nat.le_of_ble_eq_true rfl, by simp [mappedOpcodes, opTable, Instr.opcode], by simp [setsPc, Instr.opcode, isTransfer]⟩

theorem xor (a b : Byte) : Statement (.xor a b) :=
  ⟨length_encode _, Nat.le_of_ble_eq_true rfl, by simp [mappedOpcodes, opTable, Instr.opcode], by simp [setsPc, Instr.opcode, isTransfer]⟩

theorem shl (a b : Byte) : Statement (.shl a b) :=
  ⟨length_encode _, Nat.le_of_ble_eq_true rfl, by simp [mappedOpcodes, opTable, Instr.opcode], by simp [setsPc, Instr.opcode, isTransfer]⟩

end Sys2Proof.Laws.EncodedShape
end

