-- ==== Sys2Proof/Tests/Slice0.lean ====
section
/-! SUPPORT. The model's own tests. Expected values are those of spec/95_test_vectors.md (its id stands in each comment) or
are written out by hand from the rule named. The `witness_` theorems show, for each statement with hypotheses, a state
and operands that meet them. -/

namespace Sys2Proof.Tests

open Sys2Proof Sys2Proof.Machine

/-! ### Helpers -/

/-- A RUNNING state with `code` at `pc`, some registers set, and all else as after reset. -/
def at_ (pc : Byte) (code : List Byte) (regs : List (RegIndex × Byte) := []) : State :=
  regs.foldl (fun s r => s.writeReg r.1 r.2)
    { State.reset with pc := pc, mem := Memory.place [] pc.toNat code }

/-- One value of the state after one step. -/
def after {α : Type} (s : State) (f : State → α) : Option α :=
  match step s with
  | .next t => some (f t)
  | .fault _ => none
  | .refused _ => none

/-- The fault registers after a step, as numbers, with the program counter. -/
def report (t : State) : Nat × Nat × Byte := (t.faultCause.code, t.faultInfo, t.pc)

/-- Two registers and the program counter. -/
def two (i j : RegIndex) (t : State) : Byte × Byte × Byte := (t.readReg i, t.readReg j, t.pc)

/-! ### Well-formedness: an ill-formed term for each check (30_encoding.md R63) -/

theorem test_illformed_one_register : (Instr.psh 8).wellFormed = false ∧ (Instr.pop 9).wellFormed = false ∧
    (Instr.prn 255).wellFormed = false ∧ (Instr.call 8).wellFormed = false ∧ (Instr.jmp 8).wellFormed = false ∧
    (Instr.jeq 8).wellFormed = false ∧ (Instr.jne 8).wellFormed = false ∧ (Instr.inc 8).wellFormed = false ∧
    (Instr.dec 8).wellFormed = false ∧ (Instr.ldi 8 0).wellFormed = false := by decide

theorem test_illformed_first_of_two : (Instr.add 8 0).wellFormed = false ∧ (Instr.sub 8 0).wellFormed = false ∧
    (Instr.mul 8 0).wellFormed = false ∧ (Instr.div 8 0).wellFormed = false ∧ (Instr.cmp 8 0).wellFormed = false ∧
    (Instr.and 8 0).wellFormed = false ∧ (Instr.or 8 0).wellFormed = false ∧ (Instr.xor 8 0).wellFormed = false ∧
    (Instr.shl 8 0).wellFormed = false := by decide

theorem test_illformed_second_of_two : (Instr.add 0 8).wellFormed = false ∧ (Instr.sub 0 8).wellFormed = false ∧
    (Instr.mul 0 8).wellFormed = false ∧ (Instr.div 0 8).wellFormed = false ∧ (Instr.cmp 0 8).wellFormed = false ∧
    (Instr.and 0 8).wellFormed = false ∧ (Instr.or 0 8).wellFormed = false ∧ (Instr.xor 0 8).wellFormed = false ∧
    (Instr.shl 0 8).wellFormed = false := by decide

theorem test_wellformed : (Instr.add 7 7).wellFormed = true ∧ (Instr.ldi 7 255).wellFormed = true ∧
    Instr.hlt.wellFormed = true ∧ Instr.ret.wellFormed = true := by decide

/-! ### Decoding: the words of 30_encoding.md R65, bit by bit -/

theorem test_decode_no_operand : decode [0b00000001#8] = .ok (.hlt, []) ∧ decode [0b00010001#8] = .ok (.ret, []) :=
  ⟨rfl, rfl⟩

theorem test_decode_stack_and_print : decode [0b01000101#8, 0b00000001#8] = .ok (.psh 1, []) ∧
    decode [0b01000110#8, 0b00000010#8] = .ok (.pop 2, []) ∧ decode [0b01000111#8, 0b00000011#8] = .ok (.prn 3, []) ∧
    decode [0b01010000#8, 0b00000100#8] = .ok (.call 4, []) := ⟨rfl, rfl, rfl, rfl⟩

theorem test_decode_jumps : decode [0b01010100#8, 0b00000101#8] = .ok (.jmp 5, []) ∧
    decode [0b01010101#8, 0b00000110#8] = .ok (.jeq 6, []) ∧ decode [0b01010110#8, 0b00000111#8] = .ok (.jne 7, []) :=
  ⟨rfl, rfl, rfl⟩

theorem test_decode_one_register_alu : decode [0b01100101#8, 0b00000011#8] = .ok (.inc 3, []) ∧
    decode [0b01100110#8, 0b00000011#8] = .ok (.dec 3, []) := ⟨rfl, rfl⟩

theorem test_decode_ldi : decode [0b10000010#8, 0b00000000#8, 0b11111111#8] = .ok (.ldi 0 255, []) := rfl

theorem test_decode_arithmetic : decode [0b10100000#8, 1, 2] = .ok (.add 1 2, []) ∧
    decode [0b10100001#8, 1, 2] = .ok (.sub 1 2, []) ∧ decode [0b10100010#8, 1, 2] = .ok (.mul 1 2, []) ∧
    decode [0b10100011#8, 1, 2] = .ok (.div 1 2, []) ∧ decode [0b10100111#8, 1, 2] = .ok (.cmp 1 2, []) :=
  ⟨rfl, rfl, rfl, rfl, rfl⟩

theorem test_decode_logic : decode [0b10101000#8, 1, 2] = .ok (.and 1 2, []) ∧
    decode [0b10101010#8, 1, 2] = .ok (.or 1 2, []) ∧ decode [0b10101011#8, 1, 2] = .ok (.xor 1 2, []) ∧
    decode [0b10101100#8, 1, 2] = .ok (.shl 1 2, []) := ⟨rfl, rfl, rfl, rfl⟩

/-- R63: a register byte above 7 is not masked and not rejected by the decoder. -/
theorem test_decode_keeps_whole_register_byte : decode [0x45#8, 0x0F#8] = .ok (.psh 0x0F, []) := rfl

/-- R66, R67: 0x00, 0xFF, an ALU-like byte and a byte that other LS-8 descriptions use are unmapped. -/
theorem test_decode_rejects_unmapped : decode [0x00#8] = .error (.unmapped 0x00) ∧
    decode [0xFF#8, 0, 0] = .error (.unmapped 0xFF) ∧ decode [0xA4#8, 0, 0] = .error (.unmapped 0xA4) ∧
    decode [0x83#8, 0, 0] = .error (.unmapped 0x83) := ⟨rfl, rfl, rfl, rfl⟩

theorem test_decode_rejects_short_input : decode [] = .error .noBytes ∧ decode [0x45#8] = .error (.truncated 0x45) ∧
    decode [0xA0#8, 0] = .error (.truncated 0xA0) := ⟨rfl, rfl, rfl⟩

/-- The opcode table's numbering: the first byte is the least significant. -/
theorem test_decodeTableWord : decodeTableWord 8 0x01 = some .hlt ∧ decodeTableWord 16 0x0345 = some (.psh 3) ∧
    decodeTableWord 24 0x0201A0 = some (.add 1 2) ∧ decodeTableWord 8 0x00 = none := by decide

/-- S9's first instruction, `82 00 08`, as the first step after reset. -/
theorem test_withFetchWord : after (State.reset.withFetchWord 24 0x080082) (two 0 1) = some (8, 0, 3) := by decide

/-- R71: `LDI R0,8`, `MUL R0,R1`, `PRN R0`; none for a register byte above 7. -/
theorem test_assembly : (Instr.ldi 0 8).assembly = some "LDI R0,8" ∧ (Instr.mul 0 1).assembly = some "MUL R0,R1" ∧
    (Instr.prn 0).assembly = some "PRN R0" ∧ Instr.hlt.assembly = some "HLT" ∧ (Instr.psh 8).assembly = none := by
  decide

/-! ### ALU (vectors V-A, V-D, V-I, V-C) -/

/-- V-A1 -/
theorem test_add_wraps : after (at_ 0x10 [0xA0, 0, 1] [(0, 200), (1, 100)]) (two 0 1) = some (44, 100, 0x13) := by decide
/-- V-A7 -/
theorem test_add_to_sp : after (at_ 0x10 [0xA0, 7, 0] [(0, 0x10)]) (two 7 0) = some (0x04, 0x10, 0x13) := by decide
/-- V-A8 -/
theorem test_sub_borrows : after (at_ 0x10 [0xA1, 0, 1] [(0, 5), (1, 10)]) (two 0 1) = some (251, 10, 0x13) := by decide
/-- V-A11 -/
theorem test_sub_from_zero : after (at_ 0x10 [0xA1, 0, 1] [(0, 0), (1, 255)]) (two 0 1) = some (1, 255, 0x13) := by decide
/-- V-A16 -/
theorem test_mul_low_byte : after (at_ 0x10 [0xA2, 0, 1] [(0, 255), (1, 255)]) (two 0 1) = some (1, 255, 0x13) := by decide
/-- V-A20 -/
theorem test_mul_square : after (at_ 0x10 [0xA2, 0, 0] [(0, 15)]) (two 0 1) = some (225, 0, 0x13) := by decide
/-- V-A22 -/
theorem test_and : after (at_ 0x10 [0xA8, 0, 1] [(0, 0xF0), (1, 0x3C)]) (two 0 1) = some (0x30, 0x3C, 0x13) := by decide
/-- V-A26 -/
theorem test_or : after (at_ 0x10 [0xAA, 0, 1] [(0, 0xF0), (1, 0x3C)]) (two 0 1) = some (0xFC, 0x3C, 0x13) := by decide
/-- V-A30 -/
theorem test_xor : after (at_ 0x10 [0xAB, 0, 1] [(0, 0xF0), (1, 0x3C)]) (two 0 1) = some (0xCC, 0x3C, 0x13) := by decide
/-- V-A34 -/
theorem test_shl_loses_bit_7 : after (at_ 0x10 [0xAC, 0, 1] [(0, 0x81), (1, 1)]) (two 0 1) = some (0x02, 1, 0x13) := by
  decide
/-- V-A39 -/
theorem test_shl_amount_not_masked : after (at_ 0x10 [0xAC, 0, 1] [(0, 0xFF), (1, 255)]) (two 0 1) =
    some (0x00, 255, 0x13) := by decide
/-- V-D6 -/
theorem test_div_unsigned_floor : after (at_ 0x10 [0xA3, 0, 1] [(0, 200), (1, 3)]) (two 0 1) = some (66, 3, 0x13) := by
  decide
/-- V-D7 -/
theorem test_div_by_zero : after (at_ 0x10 [0xA3, 0, 1] [(0, 7)]) (fun t => (report t, t.readReg 0)) =
    some ((3, 0x10, 0x10), 7) := by decide
/-- V-I2 -/
theorem test_inc_wraps : after (at_ 0x10 [0x65, 0] [(0, 0xFF)]) (two 0 7) = some (0x00, 0xF4, 0x12) := by decide
/-- V-I4 -/
theorem test_inc_sp : after (at_ 0x10 [0x65, 7]) (two 7 0) = some (0xF5, 0, 0x12) := by decide
/-- V-I6 -/
theorem test_dec_wraps : after (at_ 0x10 [0x66, 0] [(0, 0x00)]) (two 0 7) = some (0xFF, 0xF4, 0x12) := by decide
/-- V-C5 -/
theorem test_cmp_unsigned : after (at_ 0x10 [0xA7, 0, 1] [(0, 200), (1, 100)]) (fun t => (t.fl, t.pc)) =
    some (0x02, 0x13) := by decide
/-- V-C8 -/
theorem test_cmp_clears_the_old_flag : after ((at_ 0x10 [0xA7, 0, 1] [(0, 7), (1, 7)]).setFl 0x04) (fun t => (t.fl, t.pc)) =
    some (0x01, 0x13) := by decide

/-! ### Load, print, stack (V-L, V-S) -/

/-- V-L4 -/
theorem test_ldi_sp : after (at_ 0x10 [0x82, 7, 0x80]) (two 7 0) = some (0x80, 0, 0x13) := by decide
/-- V-L9 -/
theorem test_ldi_bad_register : after (at_ 0x10 [0x82, 8, 5]) (fun t => (report t, t.regs)) =
    some ((2, 8, 0x10), State.reset.regs) := by decide
/-- V-L7 -/
theorem test_prn_unsigned : after (at_ 0x10 [0x47, 2] [(2, 255)]) (fun t => (t.out, t.pc)) =
    some ([.print 255], 0x12) := by decide
/-- V-L5: the sink shows the line `72`. -/
theorem test_prn_line : after (at_ 0x10 [0x47, 0] [(0, 72)]) (fun t => t.out.map OutEvent.line) = some ["72"] := by decide
/-- V-S3 -/
theorem test_psh_sp_pushes_the_old_value : after (at_ 0x10 [0x45, 7]) (fun t => (t.sp, t.loadByte 0xF3, t.pc)) =
    some (0xF3, 0xF4, 0x12) := by decide
/-- V-S12 -/
theorem test_psh_onto_its_own_operand : after (at_ 0x06 [0x45, 0] [(7, 0x08), (0, 3)])
    (fun t => (t.sp, t.loadByte 0x07, t.pc)) = some (0x07, 0x03, 0x08) := by decide
/-- V-S4 -/
theorem test_pop_sp : after ((at_ 0x10 [0x46, 7] [(7, 0x20)]).storeByte 0x20 0x99) (two 7 0) = some (0x99, 0, 0x12) := by
  decide
/-- V-S6 -/
theorem test_pop_wraps : after ((at_ 0x10 [0x46, 0] [(7, 0xFF)]).storeByte 0xFF 0x5A) (two 0 7) =
    some (0x5A, 0x00, 0x12) := by decide
/-- V-S9 -/
theorem test_call_sp : after (at_ 0x00 [0x50, 7]) (fun t => (t.sp, t.loadByte 0xF3, t.pc)) = some (0xF3, 0x02, 0xF3) := by
  decide
/-- V-S11 -/
theorem test_call_at_253 : after (at_ 0xFD [0x50, 0] [(0, 0x40)]) (fun t => (t.sp, t.loadByte 0xF3, t.pc, t.runState)) =
    some (0xF3, 0xFF, 0x40, .running) := by decide
/-- V-S8 -/
theorem test_ret : after ((at_ 0x0E [0x11] [(7, 0xF3)]).storeByte 0xF3 0x08) (two 7 0) = some (0xF4, 0, 0x08) := by decide

/-! ### Jumps and halt (V-J) -/

/-- V-J10 -/
theorem test_jmp_to_254 : after (at_ 0x10 [0x54, 0] [(0, 0xFE)]) (fun t => (t.pc, t.runState)) = some (0xFE, .running) := by
  decide
/-- V-J3 -/
theorem test_jeq_taken : after ((at_ 0x13 [0x55, 2] [(2, 0x20)]).setFl 0x01) (fun t => (t.pc, t.fl)) = some (0x20, 0x01) := by
  decide
/-- V-J4 -/
theorem test_jeq_not_taken : after ((at_ 0x13 [0x55, 2] [(2, 0x20)]).setFl 0x02) (fun t => (t.pc, t.fl)) =
    some (0x15, 0x02) := by decide
/-- V-J8 -/
theorem test_jne_taken_after_reset : after (at_ 0x14 [0x56, 3] [(3, 0x0C)]) (fun t => t.pc) = some 0x0C := by decide
/-- V-J7 -/
theorem test_jne_not_taken : after ((at_ 0x14 [0x56, 3] [(3, 0x0C)]).setFl 0x01) (fun t => t.pc) = some 0x16 := by decide
/-- V-J12 -/
theorem test_hlt_at_253 : after (at_ 0xFD [0x01]) (fun t => (t.runState, t.pc)) = some (.halted, 0xFE) := by decide
/-- V-J13 -/
theorem test_hlt_at_254 : after (at_ 0xFE [0x01]) (fun t => (t.runState, report t)) =
    some (.faulted, 1, 256, 0xFE) := by decide

/-! ### Unmapped bytes, faults and their order (V-U, V-F) -/

/-- V-U1 -/
theorem test_unmapped_skips_four : after (at_ 0x10 [0xFF]) (fun t => (t.out, t.pc, t.runState)) =
    some ([.diag 0xFF 0x10], 0x14, .running) := by decide
/-- V-U8 -/
theorem test_unmapped_past_the_top : after (at_ 0xFD [0xFF]) (fun t => (t.out, report t)) =
    some ([.diag 0xFF 0xFD], 1, 257, 0xFD) := by decide
/-- S0b, V-U1: the line names the opcode and the address. -/
theorem test_diag_line : (OutEvent.diag 0xFF 0x10).line = "Invalid instruction 0xFF at address 0x10" := by decide
/-- V-F1 -/
theorem test_index_before_zero_divisor : after (at_ 0 [0xA3, 9, 1]) report = some (2, 9, 0) := by decide
/-- V-F2, V-F3 -/
theorem test_first_index_before_second : after (at_ 0 [0xA0, 8, 9]) report = some (2, 8, 0) ∧
    after (at_ 0 [0xA0, 0, 9]) report = some (2, 9, 0) := by decide
/-- V-F4 -/
theorem test_ldi_at_253_writes_then_faults : after (at_ 0xFD [0x82, 3, 0x2A]) (fun t => (t.readReg 3, report t)) =
    some (0x2A, 1, 256, 0xFD) := by decide
/-- V-F9 -/
theorem test_no_step_when_ended : after (at_ 0 [0x01]).halt report = none ∧
    after ((at_ 0 [0x01]).raise .address 256) report = none := by decide

/-! ### Witnesses: the hypotheses of each statement can be met -/

theorem reset_inv : State.reset.Inv :=
  ⟨Memory.nil_wf, .inl rfl, fun _ => ⟨rfl, rfl⟩, fun h => by cases h⟩

theorem witness_EveryStepKeepsTheInvariant : ∃ s t, s.Inv ∧ step s = .next t :=
  ⟨State.reset, skipUnmapped 0 State.reset, reset_inv, by rfl⟩

theorem witness_LoadWritesTheImageAndNothingElse :
    [0x82#8, 0, 8].length ≤ 256 ∧ 2 < [0x82#8, 0, 8].length ∧ (List.replicate 256 1#8).length ≤ 256 :=
  ⟨by decide, by decide, Nat.le_of_eq List.length_replicate⟩

theorem witness_LongImageIsRefusedAndEmptyOneIsLegal : 256 < (List.replicate 257 1#8).length := by
  rw [List.length_replicate]; decide

theorem witness_EveryLoadedRunMeetsTheInvariant :
    hostLoad [0x01] State.reset = .next (State.reset.storeByte 0 0x01) := by rfl

theorem witness_EndedRunKeepsItsState : (hostRun 1 (at_ 0 [0x01])).runState ≠ .running ∧
    (hostRun 1 (at_ 0xFE [0x01])).runState ≠ .running := by decide

theorem witness_StepRunsTheDecodedInstruction : (at_ 253 [0xA0, 0, 1]).runState = .running ∧
    (at_ 253 [0xA0, 0, 1]).pc.toNat ≤ 253 ∧
    decode [(at_ 253 [0xA0, 0, 1]).mem.read 253, (at_ 253 [0xA0, 0, 1]).mem.read 254,
      (at_ 253 [0xA0, 0, 1]).mem.read 255] = .ok (.add 0 1, []) := ⟨rfl, by decide, rfl⟩

/-- Both clauses of the advance: 251 + 4 reaches 255, 252 + 4 faults. -/
theorem witness_UnmappedByteIsReportedAndSkipped :
    (∀ pc ∈ [251#8, 252#8, 253#8], (at_ pc [0xFF]).runState = .running ∧ (at_ pc [0xFF]).pc.toNat ≤ 253 ∧
      (at_ pc [0xFF]).loadByte (at_ pc [0xFF]).pc ∉ mappedOpcodes) ∧
    251 + (1 + (0xFF#8).toNat / 64) ≤ 255 ∧ 255 < 252 + (1 + (0xFF#8).toNat / 64) := by decide

theorem witness_PrefetchAboveMemoryFaults : ∀ pc ∈ [254#8, 255#8], (at_ pc [0x01]).runState = .running ∧
    254 ≤ (at_ pc [0x01]).pc.toNat := by decide

theorem witness_StepHasASuccessorExactlyWhenRunning : (at_ 0 [0x47, 0]).runState = .running ∧
    after (at_ 0 [0x47, 0]) State.out = some [.print 0] ∧ (at_ 0 []).halt.runState = .halted ∧
    ((at_ 0 []).raise .address 256).runState = .faulted := by decide

theorem witness_OnlyCmpWritesTheFlags : after (at_ 0 [0xA7, 0, 1]) State.fl = some 0x01 ∧
    after (at_ 0 [0xA0, 0, 1]) State.fl = some 0x00 := by decide

theorem witness_OnlyPshAndCallWriteMemoryAndOnlyAtTheStack :
    after (at_ 0 [0x45, 7]) (fun t => t.mem.read 0xF3) = some 0xF4 ∧
    (at_ 0 [0xA0, 0, 1]).loadByte 0 ≠ 0x45#8 ∧ (at_ 0 [0xA0, 0, 1]).loadByte 0 ≠ 0x50#8 ∧
    after (at_ 0 [0xA0, 0, 1]) (fun t => t.mem.read 0xF3) = some 0 := by decide

theorem witness_OnlyHltReachesHalted : after (at_ 253 [0x01]) State.runState = some .halted ∧
    after (at_ 254 [0x01]) State.runState = some .faulted ∧ after (at_ 0 [0x11]) State.runState = some .running := by decide

theorem witness_FaultingStepIsPrecise :
    after (at_ 0 [0x47, 8]) (fun t => (t.runState, t.faultCause)) = some (.faulted, .registerIndex) ∧
    after (at_ 255 [0x47]) (fun t => (t.runState, t.faultCause)) = some (.faulted, .address) := by decide

/-- A state for each line of the order of detection, at the boundary of its range. -/
theorem witness_FaultsAreDetectedInOrder :
    (∀ s ∈ [at_ 254 [0xA3, 9], at_ 252 [0xFF], at_ 251 [0xFF], at_ 253 [0xA3, 9, 8], at_ 253 [0xA3, 7, 8], at_ 253 [0xA3, 0, 1],
        at_ 253 [0xA0, 0, 1], at_ 252 [0xA0, 0, 1], at_ 253 [0x54, 0]],
      s.runState = .running ∧ s.faultCause = .none ∧ s.faultInfo = 0) ∧
    [at_ 254 [0xA3, 9], at_ 252 [0xFF], at_ 251 [0xFF], at_ 253 [0xA3, 9, 8], at_ 253 [0xA3, 7, 8], at_ 253 [0xA3, 0, 1],
        at_ 253 [0xA0, 0, 1], at_ 252 [0xA0, 0, 1], at_ 253 [0x54, 0]].map State.firstFault =
      [(.address, 256), (.address, 256), (.none, 0), (.registerIndex, 9), (.registerIndex, 8), (.divideByZero, 253),
       (.address, 256), (.none, 0), (.none, 0)] := by decide

theorem witness_RegisterOperandAboveSevenRaises :
    ((Instr.psh 8).regOperands.find? fun x => 7 < x.toNat) = some 8 ∧
    ((Instr.add 7 255).regOperands.find? fun x => 7 < x.toNat) = some 255 ∧
    ((Instr.add 9 8).regOperands.find? fun x => 7 < x.toNat) = some 9 := by decide

theorem witness_UnsupportedAluIdentifierRaises :
    0x82#8 ∉ [0xA0#8, 0xA1#8, 0xA2#8, 0xA3#8, 0xA7#8, 0xA8#8, 0xAA#8, 0xAB#8, 0xAC#8, 0x65#8, 0x66#8] := by decide

/-- The operand clauses (7 is the last register, 8 the first bad byte) and the advance clauses (252 + 3, 253 + 3) of the
statements on AddSubMul, AndOrXor, Shl, IncAndDec, Ldi and the rest. -/
theorem witness_operands_and_advance : 7 < (8#8 : Byte).toNat ∧ (7#8 : Byte).toNat ≤ 7 ∧
    (at_ 252 [0xA0]).pc.toNat + 3 ≤ 255 ∧ 255 < (at_ 253 [0xA0]).pc.toNat + 3 := by decide

theorem witness_ShlUsesTheWholeAmount : 8 ≤ (8#8 : Byte).toNat ∧ (at_ 0 [0xAC, 0, 1]).readReg 1 = 0#8 := by decide

theorem witness_DivIsFloorDivisionOrRaises : (at_ 0 [0xA3, 0, 7]).readReg 7 ≠ 0#8 ∧ (at_ 0 [0xA3, 0, 1]).readReg 1 = 0#8 := by
  decide

theorem witness_CmpSetsExactlyOneFlag :
    ((at_ 0 [] [(0, 3), (1, 5)]).readReg 0).toNat < ((at_ 0 [] [(0, 3), (1, 5)]).readReg 1).toNat ∧
    ((at_ 0 [] [(0, 5), (1, 3)]).readReg 1).toNat < ((at_ 0 [] [(0, 5), (1, 3)]).readReg 0).toNat ∧
    ((at_ 0 []).readReg 0).toNat = ((at_ 0 []).readReg 1).toNat := by decide

/-- The two-Step clause of the statement on PRN. -/
theorem witness_PrnPrintsTheRegister : ∀ s ∈ [at_ 250 [0x82, 7, 200, 0x47, 7]], s.runState = .running ∧ s.pc.toNat ≤ 250 ∧
    s.mem.read s.pc.toNat = 0x82#8 ∧ s.mem.read (s.pc.toNat + 1) = regByte 7 ∧ s.mem.read (s.pc.toNat + 2) = 200 ∧
    s.mem.read (s.pc.toNat + 3) = 0x47#8 ∧ s.mem.read (s.pc.toNat + 4) = regByte 7 := by decide

/-- The two-Step clause of the statement on POP, with `SP` wrapping. -/
theorem witness_PopLoadsFromTheOldPointer : ∀ s ∈ [at_ 0x10 [0x45, 1, 0x46, 2] [(1, 0x2A), (7, 0)]],
    s.runState = .running ∧ s.pc.toNat ≤ 251 ∧ s.mem.read s.pc.toNat = 0x45#8 ∧
    s.mem.read (s.pc.toNat + 1) = regByte 1 ∧ s.mem.read (s.pc.toNat + 2) = 0x46#8 ∧
    s.mem.read (s.pc.toNat + 3) = regByte 2 ∧ (1 : RegIndex) ≠ 7 ∧ (2 : RegIndex) ≠ 7 ∧
    s.pushAddr.toNat ≠ s.pc.toNat + 2 ∧ s.pushAddr.toNat ≠ s.pc.toNat + 3 := by decide

theorem witness_CallPushesTheReturnAddressAndJumps : (at_ 253 [0x50, 7]).pc.toNat ≤ 253 := by decide

theorem witness_CallThenRetReturns : (at_ 253 [0x50, 0]).pc.toNat ≤ 253 := by decide

/-- A store on the next opcode byte (P5) and a store on the own operand byte (V-S12). -/
theorem witness_StoreIsSeenByTheNextFetchOnly :
    (∀ s ∈ [at_ 0x06 [0x45, 0, 0x47] [(7, 0x09), (0, 1)], at_ 0x06 [0x45, 0] [(7, 0x08), (0, 3)]],
      s.runState = .running ∧ s.pc.toNat ≤ 253 ∧ s.mem.read s.pc.toNat = 0x45#8 ∧
      s.mem.read (s.pc.toNat + 1) = regByte 0) ∧
    (at_ 0x06 [0x45, 0, 0x47] [(7, 0x09), (0, 1)]).pushAddr.toNat = 0x06 + 2 ∧
    (at_ 0x06 [0x45, 0] [(7, 0x08), (0, 3)]).pushAddr.toNat = 0x06 + 1 := by decide

theorem witness_JeqAndJneFollowTheEqualFlag : ((at_ 0 []).setFl 0x01).flagE = true ∧
    ((at_ 0 []).setFl 0x02).flagE = false := by decide

theorem witness_HltHaltsAndAdvances : (at_ 253 [0x01]).pc.toNat ≤ 253 ∧ (at_ 254 [0x01]).runState = .running ∧
    254 ≤ (at_ 254 [0x01]).pc.toNat ∧ after (at_ 253 [0x01]) State.runState = some .halted := by decide

theorem witness_LessAndGreaterNeverSteerARun : AgreeButLG (State.reset.setFl 0x02) (State.reset.setFl 0x04) :=
  ⟨rfl, rfl, by decide, ⟨rfl, rfl, rfl⟩, rfl, rfl⟩

end Sys2Proof.Tests
end

section
/-! SUPPORT. One Step: what it answers in each case, that every instruction and every RUNNING Step answers a next state,
and how much output it adds (00_scope.md R6, R13). -/

namespace Sys2Proof.Machine

variable {s t : State}

/-! ### What a step answers, case by case (the converse of `step_next`) -/

theorem step_halted (hr : s.runState = .halted) : step s = .fault .haltedNoStep := by
  simp only [step, hr]

theorem step_faulted (hr : s.runState = .faulted) : step s = .fault .faultedNoStep := by
  simp only [step, hr]

/-- 40_instruction_cycle.md R82. -/
theorem step_prefetch_past (hr : s.runState = .running) (hp : 254 ≤ s.pc.toNat) :
    step s = .next (s.raise .address 256) := by
  simp only [step, hr, fetch_top hp]

/-- 40_instruction_cycle.md R88. -/
theorem step_unmapped (hr : s.runState = .running) (hp : s.pc.toNat ≤ 253) (hu : s.loadByte s.pc ∉ mappedOpcodes) :
    step s = .next (skipUnmapped (s.loadByte s.pc) s) := by
  simp only [step, hr, fetch_ok hp, selectInstr, decodeBytes_none_iff.mpr hu]

/-- 40_instruction_cycle.md R84. -/
theorem step_decoded {i : Instr} (hr : s.runState = .running) (hp : s.pc.toNat ≤ 253)
    (hd : decodeBytes (s.loadByte s.pc) (s.mem.read (s.pc.toNat + 1)) (s.mem.read (s.pc.toNat + 2)) = some i) :
    step s = exec i s := by
  simp only [step, hr, fetch_ok hp, selectInstr, hd]

/-! ### Every RUNNING step answers a next state -/

/-- No instruction stops the machine other than by a next state: its faults enter FAULTED (60_exceptions.md R159). -/
theorem exec_answers (i : Instr) (s : State) : ∃ t, exec i s = .next t := by
  cases i <;> exact ⟨_, rfl⟩

theorem step_answers_of_running (hr : s.runState = .running) : ∃ t, step s = .next t := by
  by_cases hp : s.pc.toNat ≤ 253
  · cases hd : decodeBytes (s.loadByte s.pc) (s.mem.read (s.pc.toNat + 1)) (s.mem.read (s.pc.toNat + 2)) with
    | none => exact ⟨_, step_unmapped hr hp (decodeBytes_none_iff.mp hd)⟩
    | some i => exact step_decoded hr hp hd ▸ exec_answers i s
  · exact ⟨_, step_prefetch_past hr (by omega)⟩

theorem step_answers_iff_running : (∃ t, step s = .next t) ↔ s.runState = .running :=
  ⟨fun ⟨_, h⟩ => (step_next h).1, step_answers_of_running⟩

/-! ### A step emits at most one event -/

/-- `t` has the output of `s`, or that output and one event after it. -/
def EmitsAtMostOne (s t : State) : Prop := t.out = s.out ∨ ∃ e, t.out = s.out ++ [e]

theorem EmitsAtMostOne.of_out_eq (h : t.out = s.out) : EmitsAtMostOne s t := .inl h

/-- An event and then an advance, whether or not the advance faults. -/
theorem emitsAtMostOne_emit_advance (s : State) (e : OutEvent) (k : Nat) :
    EmitsAtMostOne s ((s.emit e).advance k) := .inr ⟨e, by simp⟩

/-- PRN alone emits (44_load_print.md R146). -/
theorem exec_emitsAtMostOne {i : Instr} (h : exec i s = .next t) : EmitsAtMostOne s t := by
  apply exec_property h
  case prn => exact fun a _ => emitsAtMostOne_emit_advance s (.print (s.readReg a)) 2
  all_goals
    intros
    exact .of_out_eq (by simp)

/-- Of the three things a step can do, the prefetch fault emits nothing, the skip its Diag event, and an instruction
what `exec_emitsAtMostOne` says. -/
theorem step_emitsAtMostOne (h : step s = .next t) : EmitsAtMostOne s t := by
  obtain ⟨-, ⟨-, rfl⟩ | ⟨-, -, rfl⟩ | ⟨-, i, -, hi⟩⟩ := step_next h
  · exact .of_out_eq (out_raise s .address 256)
  · exact emitsAtMostOne_emit_advance s _ _
  · exact exec_emitsAtMostOne hi

/-! ### The obligation -/

/-- Settles O14: the successor exists by `step_answers_iff_running`, and `step_emitsAtMostOne` bounds its output. -/
theorem stepHasASuccessorExactlyWhenRunning : Obligations.StepHasASuccessorExactlyWhenRunning :=
  ⟨fun _ => step_answers_iff_running, fun _ _ => step_emitsAtMostOne, fun _ => step_halted, fun _ => step_faulted⟩

end Sys2Proof.Machine
end

section
/-! SUPPORT. The machine's invariant (10_state.md R26 to R29, 60_exceptions.md R151): RESET meets it and every Step keeps
it. A Step starts outside FAULTED, where the invariant is a fact about one field at a time (`State.Unfaulted`) that every
operation but a raise keeps; a raise must leave a report. -/

namespace Sys2Proof.Machine

variable {s t : State}

/-! ### The invariant outside FAULTED -/

/-- The invariant of a state outside FAULTED: its fault registers are 0. -/
structure State.Unfaulted (s : State) : Prop where
  mem_wf : s.mem.wf
  fl_legal : s.fl = 0x00#8 ∨ s.fl = 0x01#8 ∨ s.fl = 0x02#8 ∨ s.fl = 0x04#8
  run_state : s.runState ≠ .faulted
  no_cause : s.faultCause = .none
  no_info : s.faultInfo = 0

theorem State.Unfaulted.inv (h : s.Unfaulted) : s.Inv :=
  ⟨h.mem_wf, h.fl_legal, fun _ => ⟨h.no_cause, h.no_info⟩, fun hf => absurd hf h.run_state⟩

theorem State.Inv.unfaulted (h : s.Inv) (hr : s.runState ≠ .faulted) : s.Unfaulted :=
  ⟨h.mem_wf, h.fl_legal, hr, (h.no_fault hr).1, (h.no_fault hr).2⟩

theorem reset_unfaulted : State.reset.Unfaulted := ⟨Memory.nil_wf, .inl rfl, by decide, rfl, rfl⟩

/-! ### The operations that keep it -/

theorem State.Unfaulted.writeReg (h : s.Unfaulted) (i : RegIndex) (v : Byte) : (s.writeReg i v).Unfaulted := { h with }

theorem State.Unfaulted.setPc (h : s.Unfaulted) (p : Byte) : (s.setPc p).Unfaulted := { h with }

theorem State.Unfaulted.emit (h : s.Unfaulted) (e : OutEvent) : (s.emit e).Unfaulted := { h with }

theorem State.Unfaulted.halt (h : s.Unfaulted) : s.halt.Unfaulted := { h with run_state := by simp }

theorem State.Unfaulted.setFl_compareFlags (h : s.Unfaulted) (va vb : Byte) :
    (s.setFl (compareFlags va vb)).Unfaulted :=
  { h with fl_legal := .inr (compareFlags_legal va vb) }

theorem State.Unfaulted.storeByte (h : s.Unfaulted) (a v : Byte) : (s.storeByte a v).Unfaulted :=
  { h with mem_wf := Memory.write_wf h.mem_wf (Nat.le_of_lt_succ a.isLt) v }

theorem State.Unfaulted.push (h : s.Unfaulted) (v : Byte) : (s.push v).Unfaulted := (h.writeReg _ _).storeByte _ _

theorem State.Unfaulted.popState (h : s.Unfaulted) : s.popState.Unfaulted := h.writeReg _ _

/-! ### Raising a fault -/

theorem State.Unfaulted.raise (h : s.Unfaulted) {c : FaultCause} {n : Nat} (hr : (s.raise c n).faultReport) :
    (s.raise c n).Inv :=
  ⟨h.mem_wf, h.fl_legal, fun hn => absurd (runState_raise s c n) hn, fun _ => hr⟩

theorem faultReport_raise_address {n : Nat} (h : n = 256 ∨ n = 257) : (s.raise .address n).faultReport := h

theorem faultReport_raise_registerIndex {b : Byte} (h : 7 < b.toNat) :
    (s.raise .registerIndex b.toNat).faultReport := ⟨h, Nat.le_of_lt_succ b.isLt⟩

theorem faultReport_raise_divideByZero : (s.raise .divideByZero s.pc.toNat).faultReport := rfl

/-- An advance that passes the top of memory by at most two reports 256 or 257 (R151). -/
theorem State.Unfaulted.advance (h : s.Unfaulted) {k : Nat} (hk : s.pc.toNat + k ≤ 257) : (s.advance k).Inv := by
  rcases advance_cases s k with ⟨-, e⟩ | ⟨hp, e⟩
  · exact e ▸ (h.setPc _).inv
  · exact e ▸ h.raise (faultReport_raise_address (by omega))

/-! ### Instructions and Steps -/

/-- An instruction fetched inside memory keeps the invariant; the bound on `pc` bounds what its advance can report. -/
theorem exec_keeps_inv {i : Instr} (h : s.Unfaulted) (hp : s.pc.toNat ≤ 253) (hx : exec i s = .next t) : t.Inv := by
  apply exec_property hx
  case badRegister => exact fun b hb => h.raise (faultReport_raise_registerIndex hb)
  case divideByZero => exact fun _ => h.raise faultReport_raise_divideByZero
  case hlt => exact fun _ => h.halt.advance (by simp; omega)
  case ret => exact fun _ => (h.popState.setPc _).inv
  case psh => exact fun v _ => (h.push v).advance (by simp; omega)
  case pop => exact fun a _ => (h.popState.writeReg a _).advance (by simp; omega)
  case prn => exact fun a _ => (h.emit _).advance (by simp; omega)
  case call => exact fun p _ => ((h.push _).setPc p).inv
  case jump => exact fun a => (h.setPc _).inv
  case notTaken => exact h.advance (by omega)
  case write => exact fun a v k hk => (h.writeReg a v).advance (by simp; omega)
  case cmp => exact fun va vb _ => (h.setFl_compareFlags va vb).advance (by simp; omega)

/-- The skip of an unmapped byte advances by at most 4, so from 253 it reports at most 257. -/
theorem skipUnmapped_keeps_inv (h : s.Unfaulted) (hp : s.pc.toNat ≤ 253) (ir : Byte) : (skipUnmapped ir s).Inv := by
  refine (h.emit _).advance ?_
  have hir : ir.toNat < 256 := ir.isLt
  rw [pc_emit, operandCount_eq]
  omega

theorem step_keeps_inv (h : s.Inv) (hs : step s = .next t) : t.Inv := by
  obtain ⟨hrun, hcases⟩ := step_next hs
  have hu : s.Unfaulted := h.unfaulted (by simp [hrun])
  obtain ⟨-, rfl⟩ | ⟨hp, -, rfl⟩ | ⟨hp, i, -, hi⟩ := hcases
  · exact hu.raise (faultReport_raise_address (.inl rfl))
  · exact skipUnmapped_keeps_inv hu hp _
  · exact exec_keeps_inv hu hp hi

/-! ### The obligations -/

/-- Settles O3, by the three things a step can do (`step_keeps_inv`). -/
theorem everyStepKeepsTheInvariant : Obligations.EveryStepKeepsTheInvariant := fun _ _ => step_keeps_inv

/-- Settles O2: the reset state is outside FAULTED, with memory empty and all registers of the invariant 0. -/
theorem resetMeetsTheInvariant : Obligations.ResetMeetsTheInvariant := reset_unfaulted.inv

/-- Every register after RESET (10_state.md R34). -/
theorem readReg_reset (i : RegIndex) : State.reset.readReg i = if i = 7 then 0xF4#8 else 0x00#8 := by
  revert i
  decide

/-- Settles O1: the registers by `readReg_reset`, memory because nothing is listed in it, and every other piece by its
reset value. -/
theorem resetGivesEveryPieceItsValue : Obligations.ResetGivesEveryPieceItsValue :=
  ⟨readReg_reset, readReg_reset Config.spIndex, rfl, rfl, rfl, rfl, rfl, rfl, rfl, rfl, Memory.read_nil, rfl, fun _ => rfl⟩

end Sys2Proof.Machine
end

section
/-! SUPPORT. The flag register and the run state along one Step: CMP alone writes the flags (10_state.md R26), and HLT
alone halts (R28). -/

namespace Sys2Proof.Machine

variable {s t : State}

/-! ### The flags -/

/-- After CMP's write exactly one of the three flags is 1 (41_alu.md R111). -/
theorem flags_of_fl_eq_compareFlags {va vb : Byte} (h : t.fl = compareFlags va vb) :
    (t.flagL = true ∧ t.flagG = false ∧ t.flagE = false) ∨ (t.flagL = false ∧ t.flagG = true ∧ t.flagE = false) ∨
      (t.flagL = false ∧ t.flagG = false ∧ t.flagE = true) := by
  unfold State.flagL State.flagG State.flagE
  rcases compareFlags_legal va vb with e | e | e <;> rw [h, e] <;> decide

/-- An instruction keeps `FL`, or is CMP and writes the comparison of two values. -/
theorem exec_fl {i : Instr} (h : exec i s = .next t) :
    t.fl = s.fl ∨ i.opcode = 0xA7#8 ∧ ∃ va vb, t.fl = compareFlags va vb := by
  apply exec_property h
  case cmp => exact fun va vb hop => .inr ⟨hop, va, vb, by simp⟩
  all_goals
    intros
    exact .inl (by simp)

/-- Settles O15: the prefetch fault and the skip keep `FL`, and an instruction does what `exec_fl` says. -/
theorem onlyCmpWritesTheFlags : Obligations.OnlyCmpWritesTheFlags := by
  intro s t h
  obtain ⟨-, ⟨-, rfl⟩ | ⟨-, -, rfl⟩ | ⟨-, i, hd, hi⟩⟩ := step_next h
  · exact .inl (fl_raise s _ _)
  · exact .inl (fl_advance _ _)
  · refine (exec_fl hi).imp_right fun ⟨hop, va, vb, hfl⟩ => ⟨?_, flags_of_fl_eq_compareFlags hfl⟩
    exact (decodeBytes_some hd).1.symm.trans hop

/-! ### The run state -/

/-- An advance keeps the run state, or faults past the top of memory. -/
theorem runState_advance (s : State) (k : Nat) :
    (s.advance k).runState = if s.pc.toNat + k ≤ 255 then s.runState else .faulted := by
  unfold State.advance
  split <;> rfl

/-- From RUNNING an advance does not reach HALTED. -/
theorem advance_not_halted (hr : s.runState = .running) (k : Nat) : (s.advance k).runState ≠ .halted := by
  rw [runState_advance, hr]
  split <;> simp

/-- HLT alone leads from RUNNING to HALTED. -/
theorem opcode_of_exec_halted {i : Instr} (hr : s.runState = .running) (h : exec i s = .next t) :
    t.runState = .halted → i.opcode = 0x01#8 := by
  apply exec_property h
  case hlt => exact fun hop _ => hop
  case badRegister | divideByZero | ret | call | jump => simp [hr]
  case psh => exact fun v _ hh => absurd hh (advance_not_halted (s := s.push v) hr 2)
  case pop => exact fun a _ hh => absurd hh (advance_not_halted (s := s.popState.writeReg a s.popValue) hr 2)
  case prn => exact fun a _ hh => absurd hh (advance_not_halted (s := s.emit (.print (s.readReg a))) hr 2)
  case notTaken => exact fun hh => absurd hh (advance_not_halted hr 2)
  case write => exact fun a v k _ hh => absurd hh (advance_not_halted (s := s.writeReg a v) hr k)
  case cmp => exact fun va vb _ hh => absurd hh (advance_not_halted (s := s.setFl (compareFlags va vb)) hr 3)

/-- The Step of a HLT inside memory (43_jumps_halt.md R138). -/
theorem step_hlt (hr : s.runState = .running) (hp : s.pc.toNat ≤ 253) (hop : s.loadByte s.pc = 0x01#8) :
    step s = .next (s.halt.advance 1) :=
  step_decoded (i := .hlt) hr hp (by rw [hop]; rfl)

/-- Settles O17: from HALTED back to the opcode by what a step can do, and forward by `step_hlt`, whose advance stays
below the top of memory. -/
theorem onlyHltReachesHalted : Obligations.OnlyHltReachesHalted := by
  intro s t h
  obtain ⟨hr, hcases⟩ := step_next h
  constructor
  · intro hh
    obtain ⟨-, rfl⟩ | ⟨-, -, rfl⟩ | ⟨hp, i, hd, hi⟩ := hcases
    · cases hh
    · exact absurd hh (advance_not_halted (s := s.emit _) hr _)
    · exact ⟨hp, (decodeBytes_some hd).1.symm.trans (opcode_of_exec_halted hr hi hh)⟩
  · rintro ⟨hp, hop⟩
    cases h.symm.trans (step_hlt hr hp hop)
    rw [runState_advance, if_pos (by simp; omega), runState_halt]

end Sys2Proof.Machine
end

section
/-! SUPPORT. Earlier output steers nothing (10_state.md R32): every operation, instruction, Step and run commutes with
putting events ahead of the output. -/

namespace Sys2Proof.Machine

variable {s t : State} (before : List OutEvent)

/-! ### Operations -/

/-- A state is its copy with empty output, with its own output put ahead. -/
theorem withEarlierOutput_own (s : State) : ({ s with out := [] } : State).withEarlierOutput s.out = s := by
  simp [State.withEarlierOutput]

theorem emit_withEarlierOutput (s : State) (e : OutEvent) :
    (s.withEarlierOutput before).emit e = (s.emit e).withEarlierOutput before := by
  simp [State.withEarlierOutput, State.emit]

theorem advance_withEarlierOutput (s : State) (k : Nat) :
    (s.withEarlierOutput before).advance k = (s.advance k).withEarlierOutput before := by
  rcases advance_cases s k with ⟨h, e⟩ | ⟨h, e⟩ <;> rw [e]
  · exact advance_ok (s.withEarlierOutput before) h
  · exact advance_past (s.withEarlierOutput before) h

/-- An instruction body that commutes for every register commutes with the check of its operand. -/
theorem withReg_withEarlierOutput {b : Byte} {rest rest' : RegIndex → State}
    (h : ∀ a, rest' a = (rest a).withEarlierOutput before) :
    withReg b (s.withEarlierOutput before) rest' = (withReg b s rest).withEarlierOutput before := by
  unfold withReg
  cases regIdx b with
  | none => rfl
  | some a => exact h a

theorem aluRun_withEarlierOutput (id : Byte) (a : RegIndex) (va vb : Byte) (k : Nat) (s : State) :
    aluRun id a va vb k (s.withEarlierOutput before) = (aluRun id a va vb k s).withEarlierOutput before := by
  unfold aluRun
  cases alu id va vb with
  | value v => exact advance_withEarlierOutput before (s.writeReg a v) k
  | flags f => exact advance_withEarlierOutput before (s.setFl f) k
  | zeroDivisor => rfl
  | unsupported => rfl

theorem aluTwoReg_withEarlierOutput (id opa opb : Byte) (s : State) :
    aluTwoReg id opa opb (s.withEarlierOutput before) = (aluTwoReg id opa opb s).withEarlierOutput before :=
  withReg_withEarlierOutput before fun a => withReg_withEarlierOutput before fun b =>
    aluRun_withEarlierOutput before id a (s.readReg a) (s.readReg b) 3 s

theorem aluOneReg_withEarlierOutput (id opa : Byte) (s : State) :
    aluOneReg id opa (s.withEarlierOutput before) = (aluOneReg id opa s).withEarlierOutput before :=
  withReg_withEarlierOutput before fun a => aluRun_withEarlierOutput before id a (s.readReg a) 0#8 2 s

theorem jumpIf_withEarlierOutput (taken : Bool) (opa : Byte) (s : State) :
    jumpIf taken opa (s.withEarlierOutput before) = (jumpIf taken opa s).withEarlierOutput before := by
  refine withReg_withEarlierOutput before fun a => ?_
  cases taken
  · exact advance_withEarlierOutput before s 2
  · rfl

/-! ### Instructions, Steps and runs -/

theorem exec_withEarlierOutput {i : Instr} (h : exec i s = .next t) :
    exec i (s.withEarlierOutput before) = .next (t.withEarlierOutput before) := by
  cases i <;> cases h <;> refine congrArg Host.Outcome.next ?_
  case hlt => exact advance_withEarlierOutput before s.halt 1
  case ret => rfl
  case psh => exact withReg_withEarlierOutput before fun a => advance_withEarlierOutput before (s.push (s.readReg a)) 2
  case pop =>
    exact withReg_withEarlierOutput before fun a =>
      advance_withEarlierOutput before (s.popState.writeReg a s.popValue) 2
  case prn =>
    refine withReg_withEarlierOutput before fun a => ?_
    rw [emit_withEarlierOutput, advance_withEarlierOutput]
    rfl
  case call => exact withReg_withEarlierOutput before fun a => rfl
  case jmp | jeq | jne => exact jumpIf_withEarlierOutput before _ _ s
  case inc | dec => exact aluOneReg_withEarlierOutput before _ _ s
  case ldi => exact withReg_withEarlierOutput before fun a => advance_withEarlierOutput before (s.writeReg a _) 3
  all_goals exact aluTwoReg_withEarlierOutput before _ _ _ s

theorem skipUnmapped_withEarlierOutput (ir : Byte) (s : State) :
    skipUnmapped ir (s.withEarlierOutput before) = (skipUnmapped ir s).withEarlierOutput before := by
  unfold skipUnmapped
  rw [emit_withEarlierOutput, advance_withEarlierOutput]
  rfl

theorem step_withEarlierOutput (h : step s = .next t) :
    step (s.withEarlierOutput before) = .next (t.withEarlierOutput before) := by
  obtain ⟨hr, ⟨hp, rfl⟩ | ⟨hp, hu, rfl⟩ | ⟨hp, i, hd, hi⟩⟩ := step_next h
  · exact step_prefetch_past (s := s.withEarlierOutput before) hr hp
  · exact (step_unmapped (s := s.withEarlierOutput before) hr hp hu).trans
      (congrArg _ (skipUnmapped_withEarlierOutput before _ s))
  · exact (step_decoded (s := s.withEarlierOutput before) hr hp hd).trans (exec_withEarlierOutput before hi)

theorem hostRun_succ (h : step s = .next t) (n : Nat) : hostRun (n + 1) s = hostRun n t := by
  simp only [hostRun, h]

/-- A run that has left RUNNING keeps its state (40_instruction_cycle.md R89). -/
theorem hostRun_ended (h : s.runState ≠ .running) (n : Nat) : hostRun n s = s := by
  cases n with
  | zero => rfl
  | succ n =>
    unfold hostRun
    split
    · next u hu => exact absurd (step_answers_iff_running.mp ⟨u, hu⟩) h
    · rfl
    · rfl

theorem hostRun_withEarlierOutput (n : Nat) (s : State) :
    hostRun n (s.withEarlierOutput before) = (hostRun n s).withEarlierOutput before := by
  induction n generalizing s with
  | zero => rfl
  | succ n ih =>
    by_cases hr : s.runState = .running
    · obtain ⟨t, ht⟩ := step_answers_of_running hr
      rw [hostRun_succ ht, hostRun_succ (step_withEarlierOutput before ht), ih]
    · rw [hostRun_ended hr]
      exact hostRun_ended (s := s.withEarlierOutput before) hr _

/-- The output of a run begins with the output it started from: it is the run from empty output, with that put ahead. -/
theorem hostRun_out_eq_append (n : Nat) (s : State) : ∃ more, (hostRun n s).out = s.out ++ more := by
  refine ⟨(hostRun n { s with out := [] }).out, ?_⟩
  calc (hostRun n s).out
      = (hostRun n (({ s with out := [] } : State).withEarlierOutput s.out)).out := by rw [withEarlierOutput_own]
    _ = s.out ++ (hostRun n { s with out := [] }).out := by rw [hostRun_withEarlierOutput]; rfl

/-- Settles O40: runs commute with earlier output, so their own output is appended to it; RESET empties it. -/
theorem outputOnlyGrowsAndIsNeverReadBack : Obligations.OutputOnlyGrowsAndIsNeverReadBack :=
  ⟨fun n before s => hostRun_withEarlierOutput before n s, hostRun_out_eq_append, rfl⟩

end Sys2Proof.Machine
end

section
/-! SUPPORT. Memory along one Step: PSH and CALL alone write it, one byte at the decremented SP (20_memory.md R48), and a
store is seen by the next fetch and not by its own Step (R53, 40_instruction_cycle.md R91). -/

namespace Sys2Proof.Machine

variable {s t : State}

/-! ### The only writes to memory -/

theorem SameMem.of_mem_eq (h : t.mem = s.mem) : SameMem s t := fun addr => congrArg (Memory.read · addr) h

theorem SameMem.except (h : SameMem s t) (a : Byte) : SameMemExcept a s t := fun addr _ => h addr

/-- An instruction keeps memory, or is PSH or CALL and leaves the memory of a push. -/
theorem exec_mem {i : Instr} (h : exec i s = .next t) :
    t.mem = s.mem ∨ (i.opcode = 0x45#8 ∨ i.opcode = 0x50#8) ∧ ∃ v, t.mem = (s.push v).mem := by
  apply exec_property h
  case psh => exact fun v hop => .inr ⟨.inl hop, v, mem_advance _ _⟩
  case call => exact fun p hop => .inr ⟨.inr hop, _, mem_setPc _ _⟩
  all_goals
    intros
    exact .inl (by simp)

/-- The prefetch fault and the skip keep memory, and an instruction does what `exec_mem` says. -/
theorem step_mem (h : step s = .next t) :
    t.mem = s.mem ∨ (s.loadByte s.pc = 0x45#8 ∨ s.loadByte s.pc = 0x50#8) ∧ ∃ v, t.mem = (s.push v).mem := by
  obtain ⟨-, ⟨-, rfl⟩ | ⟨-, -, rfl⟩ | ⟨-, i, hd, hi⟩⟩ := step_next h
  · exact .inl (mem_raise s _ _)
  · exact .inl (mem_advance _ _)
  · exact (decodeBytes_some hd).1 ▸ exec_mem hi

/-- Settles O16: the memory of a push differs at the decremented SP alone, and a Step that keeps memory meets both
parts. -/
theorem onlyPshAndCallWriteMemoryAndOnlyAtTheStack : Obligations.OnlyPshAndCallWriteMemoryAndOnlyAtTheStack := by
  intro s t h
  rcases step_mem h with hm | ⟨hop, v, hm⟩
  · have same : SameMem s t := .of_mem_eq hm
    exact ⟨same.except _, fun _ _ => same⟩
  · refine ⟨fun addr ha => hm ▸ sameMemExcept_push s v addr ha, fun hpsh hcall => ?_⟩
    exact absurd hop (not_or.mpr ⟨hpsh, hcall⟩)

/-! ### When a pushed byte is seen -/

/-- The meaning of PSH with an operand byte that names a register (42_stack.md R122). -/
theorem exec_psh_regByte (a : RegIndex) (s : State) :
    exec (.psh (regByte a)) s = .next ((s.push (s.readReg a)).advance 2) :=
  congrArg Host.Outcome.next (withReg_regByte s a _)

/-- A Step of PSH runs with the operand byte that was in memory before its store. -/
theorem step_psh {a : RegIndex} (hr : s.runState = .running) (hp : s.pc.toNat ≤ 253) (hop : s.loadByte s.pc = 0x45#8)
    (ha : s.mem.read (s.pc.toNat + 1) = regByte a) : step s = .next ((s.push (s.readReg a)).advance 2) :=
  (step_decoded hr hp (by rw [hop, ha]; rfl)).trans (exec_psh_regByte a s)

/-- Settles O35: `step_psh` gives the state after PSH, whose memory is that of the push; when the store is on the next
opcode byte, `pc` has advanced to the address of the push, and the fetch there reads it. -/
theorem storeIsSeenByTheNextFetchOnly : Obligations.StoreIsSeenByTheNextFetchOnly := by
  intro s a hr hp hop ha
  have stored : ((s.push (s.readReg a)).advance 2).loadByte s.pushAddr = s.readReg a := by simp [State.loadByte]
  refine ⟨_, step_psh hr hp hop ha, stored, fun hnext hroom => ?_⟩
  obtain ⟨hadv, -⟩ := (advancedBy_advance s (t := s.push (s.readReg a)) 2 rfl ⟨rfl, rfl, rfl⟩).1 (by omega)
  have hpc : ((s.push (s.readReg a)).advance 2).pc = s.pushAddr := BitVec.eq_of_toNat_eq (hadv.trans hnext.symm)
  exact ⟨_, fetch_ok (by omega), (congrArg _ hpc).trans stored⟩

end Sys2Proof.Machine
end

section
/-! SUPPORT. The decoder against the encoder (30_encoding.md R60 to R66): a decode that succeeds is the encoder's inverse,
and the mapped bytes are the instructions' opcodes. -/

namespace Sys2Proof

/-! ### Decoding and encoding are inverse -/

/-- An encoded instruction decodes to itself, and leaves the bytes after it. -/
theorem decode_encode_append (i : Instr) (rest : List Byte) : decode (encode i ++ rest) = .ok (i, rest) := by
  have enough : ¬(i.operands ++ rest).length < operandCount i.opcode := by simp [operandCount_opcode]
  have drop : (i.operands ++ rest).drop (operandCount i.opcode) = rest := by simp [operandCount_opcode]
  simp only [encode, List.cons_append, decode, decodeBytes_opcode, if_neg enough, drop]

/-- The prefetched bytes that a format of at most two operands uses are those of the sequence, when it has as many. -/
theorem take_prefetched {n : Nat} {tl : List Byte} (hn : n ≤ 2) (hl : n ≤ tl.length) :
    [tl.getD 0 0, tl.getD 1 0].take n = tl.take n := by
  match n, tl, hn, hl with
  | 0, _, _, _ => rfl
  | 1, _ :: _, _, _ => rfl
  | 2, _ :: _ :: _, _, _ => rfl

/-- The operand bytes of an instruction that was decoded are the first of the sequence after its opcode byte. -/
theorem operands_eq_take {ir : Byte} {tl : List Byte} {i : Instr}
    (hd : decodeBytes ir (tl.getD 0 0) (tl.getD 1 0) = some i) (hl : operandCount ir ≤ tl.length) :
    i.operands = tl.take (operandCount ir) := by
  obtain ⟨rfl, hops⟩ := decodeBytes_some hd
  have atMostTwo : i.operands.length ≤ 2 := hops ▸ List.length_take_le' _ _
  rw [operandCount_opcode] at hl ⊢
  exact hops.trans (take_prefetched atMostTwo hl)

/-- A sequence that decodes to an instruction is its encoding, followed by the bytes left over. -/
theorem eq_encode_append_of_decode {bs rest : List Byte} {i : Instr} (h : decode bs = .ok (i, rest)) :
    bs = encode i ++ rest := by
  obtain ⟨ir, tl, rfl, hd, hl, rfl⟩ := decode_ok h
  calc ir :: tl
      = ir :: (tl.take (operandCount ir) ++ tl.drop (operandCount ir)) := by rw [List.take_append_drop]
    _ = encode i ++ tl.drop (operandCount ir) := by
      rw [← operands_eq_take hd hl, ← (decodeBytes_some hd).1]; rfl

/-- Settles O8: a decoded sequence is the encoding it begins with (`eq_encode_append_of_decode`), and an encoding decodes
to its instruction (`decode_encode_append`). -/
theorem decodeIsTheInverseOfEncode : Obligations.DecodeIsTheInverseOfEncode := fun _ rest i =>
  ⟨eq_encode_append_of_decode, fun h => h ▸ decode_encode_append i rest⟩

/-! ### The mapped bytes -/

/-- Every opcode is mapped, since the decoder reads the instruction back. -/
theorem opcode_mem_mappedOpcodes (i : Instr) : i.opcode ∈ mappedOpcodes := by
  by_contra hm
  cases (decodeBytes_none_iff.mpr hm).symm.trans (decodeBytes_opcode i [])

/-- A byte is mapped exactly when it is the opcode of the instruction that its row builds. -/
theorem mem_mappedOpcodes_iff {ir : Byte} : ir ∈ mappedOpcodes ↔ ∃ i : Instr, i.opcode = ir := by
  constructor
  · intro hm
    obtain ⟨r, hr, rfl⟩ := List.mem_map.mp hm
    exact ⟨r.build 0 0, (opTable_build r hr 0 0).1⟩
  · rintro ⟨i, rfl⟩
    exact opcode_mem_mappedOpcodes i

/-- Settles O9: `decode_unmapped` rejects the bytes outside the table, and the table holds the instructions' opcodes. -/
theorem decodeRejectsExactlyTheUnmappedBytes : Obligations.DecodeRejectsExactlyTheUnmappedBytes :=
  ⟨fun _ _ => decode_unmapped.trans (mem_mappedOpcodes_iff.not.trans not_exists), rfl, mappedOpcodes_nodup,
    opcode_mem_mappedOpcodes⟩

/-! ### Words of the spec -/

/-- Settles O10: each word is its instruction's encoding, the last one followed by a byte, so `decode_encode_append` reads
it back. -/
theorem specWordsDecodeToTheirInstructions : Obligations.SpecWordsDecodeToTheirInstructions :=
  ⟨decode_encode_append (.ldi 0 8) [], decode_encode_append (.mul 0 1) [], decode_encode_append (.prn 0) [],
    decode_encode_append (.call 1) [], decode_encode_append (.jne 3) [], decode_encode_append .hlt [0b01000111#8]⟩

end Sys2Proof
end

section
/-! SUPPORT. The instruction cycle (40_instruction_cycle.md): a run continues from the state it has reached (R89), the Step
of decoded bytes (R84), the skip of an unmapped byte (R88), and the prefetch fault (R82). -/

namespace Sys2Proof.Machine

variable {s : State}

/-! ### Runs -/

/-- A run of `n + m` Steps is a run of `m` Steps from where the first `n` lead. -/
theorem hostRun_add (n m : Nat) (s : State) : hostRun (n + m) s = hostRun m (hostRun n s) := by
  induction n generalizing s with
  | zero => rw [Nat.zero_add]; rfl
  | succ n ih =>
    rw [Nat.succ_add]
    by_cases hr : s.runState = .running
    · obtain ⟨t, ht⟩ := step_answers_of_running hr
      rw [hostRun_succ ht, hostRun_succ ht, ih]
    · simp only [hostRun_ended hr]

/-- Settles O7: the `m` further Steps start in a state that has left RUNNING, where `hostRun_ended` keeps it. -/
theorem endedRunKeepsItsState : Obligations.EndedRunKeepsItsState := fun n m s hended =>
  (hostRun_add n m s).trans (hostRun_ended hended m)

/-! ### Decoded bytes -/

/-- Settles O11: what `decode` reads from the three bytes is what the Step's own selection reads (`decode_ok`). -/
theorem stepRunsTheDecodedInstruction : Obligations.StepRunsTheDecodedInstruction := by
  intro s i rest hr hp hdecode
  obtain ⟨ir, tl, hbytes, hd, -, -⟩ := decode_ok hdecode
  cases hbytes
  exact step_decoded hr hp hd

/-! ### Unmapped bytes -/

/-- What the skip leaves and what it writes: one Diag event, whether or not its advance faults. -/
theorem skipUnmapped_frame (ir : Byte) (s : State) :
    (skipUnmapped ir s).out = s.out ++ [.diag ir s.pc] ∧ (skipUnmapped ir s).regs = s.regs ∧
      (skipUnmapped ir s).fl = s.fl ∧ (skipUnmapped ir s).mem = s.mem :=
  ⟨out_advance _ _, regs_advance _ _, fl_advance _ _, mem_advance _ _⟩

/-- The skip advances past the byte and the operands its top two bits count; bit 4 plays no part (30_encoding.md R70). -/
theorem advancedBy_skipUnmapped (ir : Byte) (s : State) : AdvancedBy (1 + ir.toNat / 64) s (skipUnmapped ir s) := by
  rw [← operandCount_eq]
  exact advancedBy_advance s _ (pc_emit s _) ⟨rfl, rfl, rfl⟩

theorem SameRegsExcept.of_regs_eq {t : State} (h : t.regs = s.regs) (l : List RegIndex) : SameRegsExcept l s t :=
  fun i _ => congrArg (fun regs : Vector Byte 8 => regs[i]) h

/-- Settles O12: the Step of an unmapped byte is the skip (`step_unmapped`), whose effects are those above. -/
theorem unmappedByteIsReportedAndSkipped : Obligations.UnmappedByteIsReportedAndSkipped := by
  intro s hr hp hu
  obtain ⟨hout, hregs, hfl, hmem⟩ := skipUnmapped_frame (s.loadByte s.pc) s
  exact ⟨_, step_unmapped hr hp hu, hout, .of_regs_eq hregs [], hfl, .of_mem_eq hmem,
    advancedBy_skipUnmapped (s.loadByte s.pc) s⟩

/-! ### The prefetch fault -/

/-- A raise records its cause and detail, and keeps everything else (60_exceptions.md R159). -/
theorem raisedOnly_raise (cause : FaultCause) (info : Nat) (s : State) :
    RaisedOnly cause info s (s.raise cause info) :=
  ⟨rfl, rfl, rfl, .of_regs_eq (regs_raise s cause info) [], rfl, rfl, .of_mem_eq (mem_raise s cause info), rfl⟩

/-- Settles O13: the Step is the raise of AddressFault(256) alone (`step_prefetch_past`). -/
theorem prefetchAboveMemoryFaults : Obligations.PrefetchAboveMemoryFaults := fun s hr hp =>
  ⟨_, step_prefetch_past hr hp, raisedOnly_raise .address 256 s⟩

end Sys2Proof.Machine
end

section
/-! SUPPORT. The ALU and its eleven instructions (41_alu.md): the arithmetic of each operation, what one ALU run leaves,
and each instruction as the run of its operation. -/

namespace Sys2Proof.Machine

/-! ### The operations (R101 to R111) -/

theorem toNat_aluAdd (x y : Byte) : (aluAdd x y).toNat = (x.toNat + y.toNat) % 256 := BitVec.toNat_ofNat _ 8

theorem toNat_aluSub (x y : Byte) : ((aluSub x y).toNat : Int) = ((x.toNat : Int) - (y.toNat : Int)) % 256 := by
  rw [aluSub, BitVec.toNat_ofInt]
  omega

theorem toNat_aluMul (x y : Byte) : (aluMul x y).toNat = (x.toNat * y.toNat) % 256 := BitVec.toNat_ofNat _ 8

/-- A quotient is at most its dividend, so it is a byte and nothing is reduced. -/
theorem toNat_aluDiv (x y : Byte) : (aluDiv x y).toNat = x.toNat / y.toNat :=
  (BitVec.toNat_ofNat _ 8).trans (Nat.mod_eq_of_lt (Nat.lt_of_le_of_lt (Nat.div_le_self _ _) x.isLt))

theorem toNat_aluInc (x : Byte) : (aluInc x).toNat = (x.toNat + 1) % 256 := BitVec.toNat_ofNat _ 8

/-- One less is 255 more, modulo 256. -/
theorem toNat_aluDec (x : Byte) : (aluDec x).toNat = (x.toNat + 255) % 256 := by
  rw [aluDec, BitVec.toNat_ofInt]
  omega

theorem toNat_aluShl (x y : Byte) : (aluShl x y).toNat = (x.toNat * 2 ^ y.toNat) % 256 := BitVec.toNat_ofNat _ 8

/-- From 8 on the factor `2 ^ y` is a multiple of 256, and no bit of the value is left. -/
theorem aluShl_eq_zero {y : Byte} (x : Byte) (hy : 8 ≤ y.toNat) : aluShl x y = 0#8 := by
  have factor : 256 ∣ 2 ^ y.toNat := pow_dvd_pow 2 hy
  exact BitVec.eq_of_toNat_eq ((toNat_aluShl x y).trans (Nat.mod_eq_zero_of_dvd (factor.mul_left x.toNat)))

theorem aluShl_zero (x : Byte) : aluShl x 0#8 = x := by simp [aluShl]

theorem compareFlags_of_lt {x y : Byte} (h : x.toNat < y.toNat) : compareFlags x y = 0b00000100#8 := if_pos h

theorem compareFlags_of_gt {x y : Byte} (h : y.toNat < x.toNat) : compareFlags x y = 0b00000010#8 := by
  rw [compareFlags, if_neg (Nat.lt_asymm h), if_pos h]

theorem compareFlags_of_eq {x y : Byte} (h : x.toNat = y.toNat) : compareFlags x y = 0b00000001#8 := by
  rw [compareFlags, if_neg h.not_lt, if_neg h.not_gt]

/-! ### One ALU run, by what the ALU gives (R100, R113) -/

section Run
variable {id va vb : Byte}

theorem aluRun_of_value {v : Byte} (h : alu id va vb = .value v) (a : RegIndex) (k : Nat) (s : State) :
    aluRun id a va vb k s = (s.writeReg a v).advance k := by
  simp only [aluRun, h]

theorem aluRun_of_flags {f : Byte} (h : alu id va vb = .flags f) (a : RegIndex) (k : Nat) (s : State) :
    aluRun id a va vb k s = (s.setFl f).advance k := by
  simp only [aluRun, h]

theorem aluRun_of_zeroDivisor (h : alu id va vb = .zeroDivisor) (a : RegIndex) (k : Nat) (s : State) :
    aluRun id a va vb k s = s.raise .divideByZero s.pc.toNat := by
  simp only [aluRun, h]

theorem aluRun_of_unsupported (h : alu id va vb = .unsupported) (a : RegIndex) (k : Nat) (s : State) :
    aluRun id a va vb k s = s.raise .aluOp id.toNat := by
  simp only [aluRun, h]

end Run

theorem aluTwoReg_regByte (id : Byte) (a b : RegIndex) (s : State) :
    aluTwoReg id (regByte a) (regByte b) s = aluRun id a (s.readReg a) (s.readReg b) 3 s := by
  simp only [aluTwoReg, withReg_regByte]

theorem aluOneReg_regByte (id : Byte) (a : RegIndex) (s : State) :
    aluOneReg id (regByte a) s = aluRun id a (s.readReg a) 0#8 2 s := by
  simp only [aluOneReg, withReg_regByte]

/-- Settles O21: the ALU's table lists no identifier outside the eleven (`alu_unsupported`), and the run is the raise
alone. -/
theorem unsupportedAluIdentifierRaises : Obligations.UnsupportedAluIdentifierRaises := by
  intro id va vb a k s outside
  have eleven : ∀ x ∈ aluTable.map AluRow.id,
      x ∈ [0xA0#8, 0xA1#8, 0xA2#8, 0xA3#8, 0xA7#8, 0xA8#8, 0xAA#8, 0xAB#8, 0xAC#8, 0x65#8, 0x66#8] := by decide
  rw [aluRun_of_unsupported (alu_unsupported va vb fun listed => outside (eleven id listed))]
  exact raisedOnly_raise .aluOp id.toNat s

/-! ### The effects of an instruction -/

/-- An instruction that writes `v` to one register and then advances: a property of `v` holds of that register after it,
and nothing else changes, whether or not the advance faults. -/
theorem exec_writeReg_advance_effect {i : Instr} {s : State} {a : RegIndex} {v : Byte} {k : Nat} {P : Byte → Prop}
    (h : exec i s = .next ((s.writeReg a v).advance k)) (hv : P v) :
    ∃ t, exec i s = .next t ∧ P (t.readReg a) ∧
      SameRegsExcept [a] s t ∧ t.fl = s.fl ∧ SameMem s t ∧ t.out = s.out ∧ AdvancedBy k s t := by
  have written : ((s.writeReg a v).advance k).readReg a = v := by simp
  have others : SameRegsExcept [a] s ((s.writeReg a v).advance k) := fun j hj => by
    rw [readReg_advance, readReg_writeReg_ne s v (List.ne_of_not_mem_cons hj)]
  exact ⟨_, h, written.symm ▸ hv, others, fl_advance _ k, .of_mem_eq (mem_advance _ k), out_advance _ k,
    advancedBy_advance s k rfl ⟨rfl, rfl, rfl⟩⟩

/-- An instruction of one register operand raises RegisterIndexFault for a byte above 7 (60_exceptions.md R153). -/
theorem raisesOnBadRegister_of_exec {mk : Byte → Instr} {rest : State → RegIndex → State}
    (hexec : ∀ a s, exec (mk a) s = .next (withReg a s (rest s))) : RaisesOnBadRegister mk := by
  intro a s ha
  rw [hexec, withReg_bad s ha]
  exact ⟨_, rfl, raisedOnly_raise _ _ s⟩

/-- A two-register ALU instruction raises RegisterIndexFault for its first byte above 7, checked in order (R153, R158). -/
theorem raisesOnBadRegisters_of_exec {op : Byte} {mk : Byte → Byte → Instr}
    (hexec : ∀ a b s, exec (mk a b) s = .next (aluTwoReg op a b s)) : RaisesOnBadRegisters mk := by
  constructor
  · intro a b s ha
    rw [hexec, aluTwoReg, withReg_bad s ha]
    exact ⟨_, rfl, raisedOnly_raise _ _ s⟩
  · intro a b s ha hb
    rw [hexec, ← regByte_of_lt (Nat.lt_succ_of_le ha), aluTwoReg, withReg_regByte, withReg_bad s hb]
    exact ⟨_, rfl, raisedOnly_raise _ _ s⟩

/-! ### Instructions of two registers -/

section TwoRegisters
variable {op : Byte} {mk : Byte → Byte → Instr} (hexec : ∀ a b s, exec (mk a b) s = .next (aluTwoReg op a b s))
include hexec

theorem exec_regByte_regByte (a b : RegIndex) (s : State) :
    exec (mk (regByte a) (regByte b)) s = .next (aluRun op a (s.readReg a) (s.readReg b) 3 s) := by
  rw [hexec, aluTwoReg_regByte]

/-- A two-register instruction whose operation gives the value `f` of the old registers writes any result that `f`
meets. -/
theorem writesFirstOfTwo_of_alu {f : Byte → Byte → Byte} {res : Byte → Byte → Byte → Prop}
    (hencode : ∀ a b, encode (mk a b) = [op, a, b]) (halu : ∀ x y, alu op x y = .value (f x y))
    (hres : ∀ x y, res x y (f x y)) : WritesFirstOfTwo op mk res := by
  refine ⟨hencode, fun a b s => ?_, raisesOnBadRegisters_of_exec hexec⟩
  refine exec_writeReg_advance_effect (v := f (s.readReg a) (s.readReg b)) ?_ (hres _ _)
  rw [exec_regByte_regByte hexec, aluRun_of_value (halu _ _)]

end TwoRegisters

/-- Settles O22: each is `writesFirstOfTwo_of_alu` with the arithmetic of its operation. -/
theorem addSubMulWrapModulo256 : Obligations.AddSubMulWrapModulo256 :=
  ⟨writesFirstOfTwo_of_alu (fun _ _ _ => rfl) (fun _ _ => rfl) alu_add toNat_aluAdd,
    writesFirstOfTwo_of_alu (fun _ _ _ => rfl) (fun _ _ => rfl) alu_sub toNat_aluSub,
    writesFirstOfTwo_of_alu (fun _ _ _ => rfl) (fun _ _ => rfl) alu_mul toNat_aluMul⟩

/-- Settles O23: each is `writesFirstOfTwo_of_alu` with the library's bit of a bitwise operation. -/
theorem andOrXorWorkBitByBit : Obligations.AndOrXorWorkBitByBit :=
  ⟨writesFirstOfTwo_of_alu (fun _ _ _ => rfl) (fun _ _ => rfl) alu_and fun _ _ _ _ => BitVec.getLsbD_and,
    writesFirstOfTwo_of_alu (fun _ _ _ => rfl) (fun _ _ => rfl) alu_or fun _ _ _ _ => BitVec.getLsbD_or,
    writesFirstOfTwo_of_alu (fun _ _ _ => rfl) (fun _ _ => rfl) alu_xor fun _ _ _ _ => BitVec.getLsbD_xor⟩

/-- Settles O24: `writesFirstOfTwo_of_alu` with the product by a power of two, and its two limits. -/
theorem shlUsesTheWholeAmount : Obligations.ShlUsesTheWholeAmount :=
  writesFirstOfTwo_of_alu (fun _ _ _ => rfl) (fun _ _ => rfl) alu_shl fun x y =>
    ⟨toNat_aluShl x y, aluShl_eq_zero x, fun hy => hy ▸ aluShl_zero x⟩

/-! ### DIV -/

theorem alu_div_of_ne_zero {y : Byte} (x : Byte) (hy : y ≠ 0#8) : alu 0xA3#8 x y = .value (aluDiv x y) :=
  (alu_div x y).trans (if_neg fun h => hy (BitVec.eq_of_toNat_eq h))

theorem alu_div_zero (x : Byte) : alu 0xA3#8 x 0#8 = .zeroDivisor := alu_div x 0#8

theorem exec_div_regByte (a b : RegIndex) (s : State) :
    exec (.div (regByte a) (regByte b)) s = .next (aluRun 0xA3#8 a (s.readReg a) (s.readReg b) 3 s) :=
  exec_regByte_regByte (fun _ _ _ => rfl) a b s

/-- Settles O25: with a divisor the run writes the quotient and advances, and without one it is the raise alone. -/
theorem divIsFloorDivisionOrRaises : Obligations.DivIsFloorDivisionOrRaises := by
  refine ⟨fun _ _ => rfl, fun a b s hb => ?_, fun a b s hb => ?_,
    raisesOnBadRegisters_of_exec fun _ _ _ => rfl⟩
  · refine exec_writeReg_advance_effect (P := fun r => r.toNat = _) ?_ (toNat_aluDiv _ _)
    rw [exec_div_regByte, aluRun_of_value (alu_div_of_ne_zero _ hb)]
  · rw [exec_div_regByte, hb, aluRun_of_zeroDivisor (alu_div_zero _)]
    exact ⟨_, rfl, raisedOnly_raise _ _ s⟩

/-! ### INC and DEC -/

theorem exec_inc_regByte (a : RegIndex) (s : State) :
    exec (.inc (regByte a)) s = .next ((s.writeReg a (aluInc (s.readReg a))).advance 2) :=
  congrArg Host.Outcome.next ((aluOneReg_regByte _ a s).trans (aluRun_of_value (alu_inc _ _) a 2 s))

theorem exec_dec_regByte (a : RegIndex) (s : State) :
    exec (.dec (regByte a)) s = .next ((s.writeReg a (aluDec (s.readReg a))).advance 2) :=
  congrArg Host.Outcome.next ((aluOneReg_regByte _ a s).trans (aluRun_of_value (alu_dec _ _) a 2 s))

/-- Settles O26: each writes its operation's value and advances by 2 (`exec_writeReg_advance_effect`). -/
theorem incAndDecWrapModulo256 : Obligations.IncAndDecWrapModulo256 :=
  ⟨fun _ => ⟨rfl, rfl⟩,
    fun a s => exec_writeReg_advance_effect (P := fun r => r.toNat = _) (exec_inc_regByte a s) (toNat_aluInc _),
    fun a s => exec_writeReg_advance_effect (P := fun r => r.toNat = _) (exec_dec_regByte a s) (toNat_aluDec _),
    raisesOnBadRegister_of_exec fun _ _ => rfl, raisesOnBadRegister_of_exec fun _ _ => rfl⟩

/-! ### CMP -/

theorem exec_cmp_regByte (a b : RegIndex) (s : State) : exec (.cmp (regByte a) (regByte b)) s =
    .next ((s.setFl (compareFlags (s.readReg a) (s.readReg b))).advance 3) := by
  rw [exec_regByte_regByte (fun _ _ _ => rfl), aluRun_of_flags (alu_cmp _ _)]

/-- Settles O27: CMP writes `compareFlags` of the two registers to `FL` and advances; the three orders of the two values
each give their flag. -/
theorem cmpSetsExactlyOneFlag : Obligations.CmpSetsExactlyOneFlag := by
  refine ⟨fun _ _ => rfl, fun a b s => ⟨_, exec_cmp_regByte a b s, ?_⟩,
    raisesOnBadRegisters_of_exec fun _ _ _ => rfl⟩
  rw [fl_advance, fl_setFl]
  exact ⟨compareFlags_of_lt, compareFlags_of_gt, compareFlags_of_eq, .of_regs_eq (regs_advance _ 3) [],
    .of_mem_eq (mem_advance _ 3), out_advance _ 3, advancedBy_advance s 3 rfl ⟨rfl, rfl, rfl⟩⟩

end Sys2Proof.Machine
end

section
/-! SUPPORT. The stack instructions (42_stack.md): what a push leaves and what a pop makes of it (R120, R121), said once
for PSH, POP, CALL, RET and the two round trips. -/

namespace Sys2Proof.Machine

variable {s t : State} {v : Byte}

/-! ### After a push -/

theorem readReg_eq_of_regs_eq (h : t.regs = s.regs) (i : RegIndex) : t.readReg i = s.readReg i :=
  SameRegsExcept.of_regs_eq h [] i List.not_mem_nil

/-- `t` has the registers and the memory of `s` after `push(v)`: what PSH and CALL leave, which differ in `pc` and, where
PSH's advance faults, in the run state. -/
structure AfterPush (v : Byte) (s t : State) : Prop where
  regs : t.regs = (s.push v).regs
  mem : t.mem = (s.push v).mem

theorem afterPush_advance (s : State) (v : Byte) (k : Nat) : AfterPush v s ((s.push v).advance k) :=
  ⟨regs_advance _ k, mem_advance _ k⟩

theorem afterPush_setPc (s : State) (v p : Byte) : AfterPush v s ((s.push v).setPc p) :=
  ⟨regs_setPc _ p, mem_setPc _ p⟩

theorem AfterPush.readReg (h : AfterPush v s t) (i : RegIndex) :
    t.readReg i = if i = 7 then s.pushAddr else s.readReg i :=
  (readReg_eq_of_regs_eq h.regs i).trans (readReg_push s v i)

theorem AfterPush.sp (h : AfterPush v s t) : t.sp = s.pushAddr := h.readReg 7

theorem AfterPush.sameRegsExcept (h : AfterPush v s t) : SameRegsExcept [7] s t := fun i hi =>
  (h.readReg i).trans (if_neg (List.ne_of_not_mem_cons hi))

theorem AfterPush.read_pushAddr (h : AfterPush v s t) : t.mem.read s.pushAddr.toNat = v := by
  rw [h.mem, mem_push, Memory.read_write_same]

theorem AfterPush.sameMemExcept (h : AfterPush v s t) : SameMemExcept s.pushAddr s t := fun addr ha => by
  rw [h.mem, sameMemExcept_push s v addr ha]

/-! ### A pop, and a pop after a push -/

theorem popState_sameRegsExcept (s : State) : SameRegsExcept [7] s s.popState := fun i hi =>
  (readReg_popState s i).trans (if_neg (List.ne_of_not_mem_cons hi))

theorem pushAddr_add_one (s : State) : s.pushAddr + 1#8 = s.sp := BitVec.sub_add_cancel s.sp 1#8

/-- A pop after a push returns the byte pushed, for every `SP`. -/
theorem AfterPush.popValue (h : AfterPush v s t) : t.popValue = v := by
  rw [State.popValue, h.sp]
  exact h.read_pushAddr

/-- A pop after a push gives every register back, `SP` among them. -/
theorem AfterPush.readReg_popState (h : AfterPush v s t) (i : RegIndex) : t.popState.readReg i = s.readReg i := by
  rw [Sys2Proof.Machine.readReg_popState, h.sp, pushAddr_add_one]
  by_cases hi : i = Config.spIndex
  · rw [if_pos hi, hi]; rfl
  · rw [if_neg hi, h.sameRegsExcept i (by simpa using hi)]

/-! ### PSH -/

/-- Settles O30: PSH is the push of the old register value (`exec_psh_regByte`) and an advance. -/
theorem pshStoresAtTheDecrementedPointer : Obligations.PshStoresAtTheDecrementedPointer := by
  refine ⟨fun _ => rfl, fun a s => ?_, raisesOnBadRegister_of_exec fun _ _ => rfl⟩
  have pushed := afterPush_advance s (s.readReg a) 2
  exact ⟨_, exec_psh_regByte a s, toNat_pushAddr s, pushed.sp, pushed.read_pushAddr, pushed.sameMemExcept,
    pushed.sameRegsExcept, fl_advance _ 2, out_advance _ 2, advancedBy_advance s 2 rfl ⟨rfl, rfl, rfl⟩⟩

/-! ### POP -/

/-- The state after POP (R123), for a register that the operand byte names. -/
def State.popInto (s : State) (a : RegIndex) : State := (s.popState.writeReg a s.popValue).advance 2

theorem exec_pop_regByte (a : RegIndex) (s : State) : exec (.pop (regByte a)) s = .next (s.popInto a) :=
  congrArg Host.Outcome.next (withReg_regByte s a _)

theorem step_pop {a : RegIndex} (hr : s.runState = .running) (hp : s.pc.toNat ≤ 253) (hop : s.loadByte s.pc = 0x46#8)
    (ha : s.mem.read (s.pc.toNat + 1) = regByte a) : step s = .next (s.popInto a) :=
  (step_decoded hr hp (by rw [hop, ha]; rfl)).trans (exec_pop_regByte a s)

theorem readReg_popInto_same (s : State) (a : RegIndex) : (s.popInto a).readReg a = s.popValue := by
  rw [State.popInto, readReg_advance, readReg_writeReg_same]

theorem readReg_popInto_ne (s : State) {a i : RegIndex} (h : i ≠ a) :
    (s.popInto a).readReg i = s.popState.readReg i := by
  rw [State.popInto, readReg_advance, readReg_writeReg_ne _ _ h]

theorem sp_popInto (s : State) {a : RegIndex} (h : a ≠ 7) : (s.popInto a).sp = s.sp + 1#8 :=
  (readReg_popInto_ne s h.symm).trans (sp_popState s)

theorem mem_popInto (s : State) (a : RegIndex) : (s.popInto a).mem = s.mem := mem_advance _ 2

theorem advancedBy_popInto (s : State) (a : RegIndex) : AdvancedBy 2 s (s.popInto a) :=
  advancedBy_advance s 2 rfl ⟨rfl, rfl, rfl⟩

/-- Only the register loaded and `SP` differ after POP. -/
theorem popInto_sameRegsExcept (s : State) (a : RegIndex) : SameRegsExcept [a, 7] s (s.popInto a) := by
  intro i hi
  obtain ⟨ha, h7⟩ := List.ne_and_not_mem_of_not_mem_cons hi
  rw [readReg_popInto_ne s ha, popState_sameRegsExcept s i h7]

/-- The two Steps are a push and a pop at the same address. The push does not touch the POP's own bytes, so the second
Step fetches the POP. -/
theorem pshThenPopRoundTrips : PshThenPopRoundTrips := by
  intro s a b hr hp hpsh ha hpop hb _ hb7 hop harg
  have pushed := afterPush_advance s (s.readReg a) 2
  have psh := step_psh hr (by omega) hpsh ha
  obtain ⟨hpc, hrun, -, -⟩ := (advancedBy_advance s (t := s.push (s.readReg a)) 2 rfl ⟨rfl, rfl, rfl⟩).1 (by omega)
  generalize (s.push (s.readReg a)).advance 2 = t at pushed psh hpc hrun
  have opcode : t.loadByte t.pc = 0x46#8 := by
    rw [State.loadByte, hpc, pushed.sameMemExcept _ hop.symm, hpop]
  have operand : t.mem.read (t.pc.toNat + 1) = regByte b := by
    rw [hpc, pushed.sameMemExcept _ harg.symm, hb]
  have pop := step_pop (hrun.trans hr) (by omega) opcode operand
  have restored : SameRegsExcept [b] s (t.popInto b) := fun i hi => by
    rw [readReg_popInto_ne t (List.ne_of_not_mem_cons hi), pushed.readReg_popState]
  obtain ⟨hpc', -⟩ := (advancedBy_popInto t b).1 (by omega)
  exact ⟨t, t.popInto b, psh, pop, (readReg_popInto_same t b).trans pushed.popValue,
    restored 7 (by simpa using hb7.symm), restored, fun addr h => by rw [mem_popInto, pushed.sameMemExcept addr h],
    by omega⟩

/-- Settles O31: the state after POP is `State.popInto`, and the two Steps are `pshThenPopRoundTrips`. -/
theorem popLoadsFromTheOldPointer : Obligations.PopLoadsFromTheOldPointer := by
  refine ⟨fun _ => rfl, fun a s => ?_, raisesOnBadRegister_of_exec fun _ _ => rfl, pshThenPopRoundTrips⟩
  have incremented : a ≠ 7 → (s.popInto a).sp.toNat = (s.sp.toNat + 1) % 256 := fun ha => by
    rw [sp_popInto s ha]; exact BitVec.toNat_add s.sp 1#8
  exact ⟨_, exec_pop_regByte a s, readReg_popInto_same s a, incremented, popInto_sameRegsExcept s a,
    .of_mem_eq (mem_popInto s a), fl_advance _ 2, out_advance _ 2, advancedBy_popInto s a⟩

/-! ### CALL -/

/-- The meaning of CALL with an operand byte that names a register: the target is read after the push (R124). -/
theorem exec_call_regByte (a : RegIndex) (s : State) : exec (.call (regByte a)) s =
    .next ((s.push (s.pc + 2#8)).setPc (if a = 7 then s.pushAddr else s.readReg a)) := by
  rw [← readReg_push s (s.pc + 2#8) a]
  exact congrArg Host.Outcome.next (withReg_regByte s a _)

/-- The return address of a CALL that a Step executes does not wrap. -/
theorem toNat_returnAddress (hp : s.pc.toNat ≤ 253) : (s.pc + 2#8).toNat = s.pc.toNat + 2 :=
  (BitVec.toNat_add s.pc 2#8).trans (Nat.mod_eq_of_lt (show s.pc.toNat + 2 < 256 by omega))

/-- Settles O32: CALL is the push of the return address and a jump. -/
theorem callPushesTheReturnAddressAndJumps : Obligations.CallPushesTheReturnAddressAndJumps := by
  refine ⟨fun _ => rfl, fun a s hp => ?_, raisesOnBadRegister_of_exec fun _ _ => rfl⟩
  have pushed := afterPush_setPc s (s.pc + 2#8) (if a = 7 then s.pushAddr else s.readReg a)
  exact ⟨_, exec_call_regByte a s, toNat_pushAddr s, pushed.sp,
    (congrArg BitVec.toNat pushed.read_pushAddr).trans (toNat_returnAddress hp), pushed.sameMemExcept, rfl,
    pushed.sameRegsExcept, rfl, rfl, rfl, rfl, rfl⟩

/-! ### RET -/

theorem exec_ret (s : State) : exec .ret s = .next (s.popState.setPc s.popValue) := rfl

/-- Settles O33: RET is a pop and a jump to the byte popped. -/
theorem retJumpsToThePoppedByte : Obligations.RetJumpsToThePoppedByte := by
  refine ⟨rfl, fun s => ⟨_, exec_ret s, rfl, ?_, popState_sameRegsExcept s, .of_mem_eq rfl, rfl, rfl, rfl, rfl, rfl⟩⟩
  rw [sp_setPc, sp_popState]
  exact BitVec.toNat_add s.sp 1#8

/-- Settles O34: RET pops what CALL pushed, which is the return address, and the pop gives every register back. -/
theorem callThenRetReturns : Obligations.CallThenRetReturns := by
  intro a s hp
  have pushed := afterPush_setPc s (s.pc + 2#8) (if a = 7 then s.pushAddr else s.readReg a)
  exact ⟨_, _, exec_call_regByte a s, exec_ret _, (congrArg BitVec.toNat pushed.popValue).trans (toNat_returnAddress hp),
    fun i _ => pushed.readReg_popState i, pushed.sameMemExcept⟩

end Sys2Proof.Machine
end

section
/-! SUPPORT. The flags `L` and `G` steer nothing (43_jumps_halt.md R139): a state that agrees with `s` in all else is
`s` with another `FL` of the same `E`, and every operation, instruction, Step and run keeps two such states so. -/

namespace Sys2Proof.Machine

variable {s t : State} {f : Byte}

/-! ### The relation -/

/-- Another `FL` with the same `E` differs in `L`, `G` and the unused bits alone. -/
theorem agreeButLG_setFl (s : State) (hE : (s.setFl f).flagE = s.flagE) : AgreeButLG s (s.setFl f) :=
  ⟨rfl, rfl, hE, ⟨rfl, rfl, rfl⟩, rfl, rfl⟩

theorem agreeButLG_refl (s : State) : AgreeButLG s s := agreeButLG_setFl (f := s.fl) s rfl

theorem AgreeButLG.eq_setFl (h : AgreeButLG s t) : t = s.setFl t.fl := by
  obtain ⟨hregs, hpc, -, ⟨hrun, hcause, hinfo⟩, hmem, hout⟩ := h
  cases s
  cases t
  cases hregs; cases hpc; cases hrun; cases hcause; cases hinfo; cases hmem; cases hout
  rfl

/-- The two states of the relation, by the one field in which they differ. -/
theorem AgreeButLG.exists_setFl (h : AgreeButLG s t) : ∃ f, (s.setFl f).flagE = s.flagE ∧ t = s.setFl f :=
  have ⟨_, _, hE, _⟩ := h
  ⟨t.fl, hE, h.eq_setFl⟩

/-! ### Operations -/

/-- The advance depends on `pc` alone. -/
theorem AgreeButLG.advance (h : AgreeButLG s t) (k : Nat) : AgreeButLG (s.advance k) (t.advance k) := by
  obtain ⟨f, hE, rfl⟩ := h.exists_setFl
  rcases advance_cases s k with ⟨hk, e⟩ | ⟨hk, e⟩ <;> rw [e]
  · rw [advance_ok (s.setFl f) hk]
    exact agreeButLG_setFl (s.setPc _) hE
  · rw [advance_past (s.setFl f) hk]
    exact agreeButLG_setFl (s.raise _ _) hE

section SameE
variable (hE : (s.setFl f).flagE = s.flagE)
include hE

/-- An instruction body that keeps the relation for every register keeps it behind the check of its operand. -/
theorem withReg_agreeButLG {b : Byte} {rest rest' : RegIndex → State} (h : ∀ a, AgreeButLG (rest a) (rest' a)) :
    AgreeButLG (withReg b s rest) (withReg b (s.setFl f) rest') := by
  unfold withReg
  cases regIdx b with
  | none => exact agreeButLG_setFl (s.raise _ _) hE
  | some a => exact h a

/-- An ALU run on the same operands: CMP overwrites `FL` in both states alike, and the other operations keep it. -/
theorem aluRun_agreeButLG (id : Byte) (a : RegIndex) (va vb : Byte) (k : Nat) :
    AgreeButLG (aluRun id a va vb k s) (aluRun id a va vb k (s.setFl f)) := by
  unfold aluRun
  cases alu id va vb with
  | value v => exact (agreeButLG_setFl (s.writeReg a v) hE).advance k
  | flags g => exact (agreeButLG_refl (s.setFl g)).advance k
  | zeroDivisor => exact agreeButLG_setFl (s.raise _ _) hE
  | unsupported => exact agreeButLG_setFl (s.raise _ _) hE

theorem aluTwoReg_agreeButLG (id opa opb : Byte) :
    AgreeButLG (aluTwoReg id opa opb s) (aluTwoReg id opa opb (s.setFl f)) :=
  withReg_agreeButLG hE fun a => withReg_agreeButLG hE fun b =>
    aluRun_agreeButLG hE id a (s.readReg a) (s.readReg b) 3

theorem aluOneReg_agreeButLG (id opa : Byte) : AgreeButLG (aluOneReg id opa s) (aluOneReg id opa (s.setFl f)) :=
  withReg_agreeButLG hE fun a => aluRun_agreeButLG hE id a (s.readReg a) 0#8 2

/-- A jump on one condition, taken in both states or in neither. -/
theorem jumpIf_agreeButLG {taken taken' : Bool} (hc : taken' = taken) (opa : Byte) :
    AgreeButLG (jumpIf taken opa s) (jumpIf taken' opa (s.setFl f)) := by
  subst hc
  refine withReg_agreeButLG hE fun a => ?_
  cases taken'
  · exact (agreeButLG_setFl s hE).advance 2
  · exact agreeButLG_setFl (s.setPc (s.readReg a)) hE

end SameE

/-! ### Instructions, Steps and runs -/

/-- JEQ and JNE alone read `FL`, and only its `E`; every other instruction reads what the two states share. -/
theorem exec_agreeButLG {i : Instr} {s' : State} (h : AgreeButLG s t) (hx : exec i s = .next s') :
    ∃ t', exec i t = .next t' ∧ AgreeButLG s' t' := by
  obtain ⟨f, hE, rfl⟩ := h.exists_setFl
  cases i <;> cases hx <;> refine ⟨_, rfl, ?_⟩
  case hlt => exact (agreeButLG_setFl s.halt hE).advance 1
  case ret => exact agreeButLG_setFl (s.popState.setPc s.popValue) hE
  case psh => exact withReg_agreeButLG hE fun a => (agreeButLG_setFl (s.push (s.readReg a)) hE).advance 2
  case pop =>
    exact withReg_agreeButLG hE fun a => (agreeButLG_setFl (s.popState.writeReg a s.popValue) hE).advance 2
  case prn =>
    exact withReg_agreeButLG hE fun a => (agreeButLG_setFl (s.emit (.print (s.readReg a))) hE).advance 2
  case call =>
    exact withReg_agreeButLG hE fun a =>
      agreeButLG_setFl ((s.push (s.pc + 2#8)).setPc ((s.push (s.pc + 2#8)).readReg a)) hE
  case jmp => exact jumpIf_agreeButLG hE rfl _
  case jeq => exact jumpIf_agreeButLG hE hE _
  case jne => exact jumpIf_agreeButLG hE (congrArg not hE) _
  case inc | dec => exact aluOneReg_agreeButLG hE _ _
  case ldi a v => exact withReg_agreeButLG hE fun a => (agreeButLG_setFl (s.writeReg a v) hE).advance 3
  all_goals exact aluTwoReg_agreeButLG hE _ _ _

theorem skipUnmapped_agreeButLG (ir : Byte) (h : AgreeButLG s t) :
    AgreeButLG (skipUnmapped ir s) (skipUnmapped ir t) := by
  obtain ⟨f, hE, rfl⟩ := h.exists_setFl
  exact (agreeButLG_setFl (s.emit (.diag ir s.pc)) hE).advance _

/-- The Step lemma of the relation: the two states fetch the same bytes, so they fault, skip or execute together. -/
theorem step_agreeButLG {s' : State} (h : AgreeButLG s t) (hs : step s = .next s') :
    ∃ t', step t = .next t' ∧ AgreeButLG s' t' := by
  obtain ⟨f, hE, rfl⟩ := h.exists_setFl
  obtain ⟨hr, ⟨hp, rfl⟩ | ⟨hp, hu, rfl⟩ | ⟨hp, i, hd, hi⟩⟩ := step_next hs
  · exact ⟨_, step_prefetch_past (s := s.setFl f) hr hp, agreeButLG_setFl (s.raise _ _) hE⟩
  · exact ⟨_, step_unmapped (s := s.setFl f) hr hp hu, skipUnmapped_agreeButLG _ h⟩
  · rw [step_decoded (s := s.setFl f) hr hp hd]
    exact exec_agreeButLG h hi

/-- Settles O39, by induction on the length of the run with `step_agreeButLG`; the two states leave RUNNING together. -/
theorem lessAndGreaterNeverSteerARun : Obligations.LessAndGreaterNeverSteerARun := by
  intro n
  induction n with
  | zero => exact fun _ _ h => h
  | succ n ih =>
    intro s t h
    by_cases hr : s.runState = .running
    · obtain ⟨s', hs⟩ := step_answers_of_running hr
      obtain ⟨t', ht, h'⟩ := step_agreeButLG h hs
      rw [hostRun_succ hs, hostRun_succ ht]
      exact ih s' t' h'
    · obtain ⟨f, -, rfl⟩ := h.exists_setFl
      rw [hostRun_ended hr, hostRun_ended (s := s.setFl f) hr]
      exact h

end Sys2Proof.Machine
end

section
/-! SUPPORT. The jumps and the halt (43_jumps_halt.md R135 to R138). The three jumps are one operation, `jumpIf`, whose
effects are said once. -/

namespace Sys2Proof.Machine

/-! ### The jumps -/

/-- `t` is `s` after a jump to the address in register `a`, or after `Advance(2)` when the jump is not taken. -/
structure AfterJump (taken : Bool) (a : RegIndex) (s t : State) : Prop where
  target : taken = true → t.pc = s.readReg a ∧ SameRun s t
  notTaken : taken = false → AdvancedBy 2 s t
  regs : SameRegsExcept [] s t
  mem : SameMem s t
  fl : t.fl = s.fl
  out : t.out = s.out

theorem afterJump_jumpIf (taken : Bool) (a : RegIndex) (s : State) :
    AfterJump taken a s (jumpIf taken (regByte a) s) := by
  rw [jumpIf, withReg_regByte]
  cases taken with
  | true =>
    exact ⟨fun _ => ⟨rfl, rfl, rfl, rfl⟩, nofun, .of_regs_eq rfl [], .of_mem_eq rfl, rfl, rfl⟩
  | false =>
    exact ⟨nofun, fun _ => advancedBy_advance s 2 rfl ⟨rfl, rfl, rfl⟩, .of_regs_eq (regs_advance s 2) [],
      .of_mem_eq (mem_advance s 2), fl_advance s 2, out_advance s 2⟩

/-- Settles O36: JMP is the jump that is always taken (`afterJump_jumpIf`). -/
theorem jmpGoesToTheRegister : Obligations.JmpGoesToTheRegister := by
  refine ⟨fun _ => rfl, fun a s => ?_, raisesOnBadRegister_of_exec fun _ _ => rfl⟩
  have jump := afterJump_jumpIf true a s
  obtain ⟨hpc, hrun⟩ := jump.target rfl
  exact ⟨_, rfl, hpc, jump.regs, jump.mem, jump.fl, jump.out, hrun⟩

/-- Settles O37: JEQ is the jump on `E` and JNE the jump on its negation; the register check comes before either. -/
theorem jeqAndJneFollowTheEqualFlag : Obligations.JeqAndJneFollowTheEqualFlag := by
  refine ⟨fun _ => ⟨rfl, rfl⟩, fun a s => ?_, fun a s => ?_, raisesOnBadRegister_of_exec fun _ _ => rfl,
    raisesOnBadRegister_of_exec fun _ _ => rfl⟩
  · have jump := afterJump_jumpIf s.flagE a s
    exact ⟨_, rfl, jump.target, jump.notTaken, jump.regs, jump.mem, jump.fl, jump.out⟩
  · have jump := afterJump_jumpIf (!s.flagE) a s
    exact ⟨_, rfl, fun hE => jump.target (congrArg not hE), fun hE => jump.notTaken (congrArg not hE), jump.regs,
      jump.mem, jump.fl, jump.out⟩

/-! ### The halt -/

/-- Settles O38: below the top of memory the advance of HLT keeps the run state HALTED, where no Step is defined; at 254
and 255 the prefetch faults; the converse is `onlyHltReachesHalted`. -/
theorem hltHaltsAndAdvances : Obligations.HltHaltsAndAdvances := by
  refine ⟨rfl, fun s hp => ?_, fun s hr hp => ⟨_, step_prefetch_past hr hp, rfl⟩,
    fun s t hs hh => ((onlyHltReachesHalted s t hs).mp hh).2⟩
  have below : s.halt.pc.toNat + 1 ≤ 255 := by rw [pc_halt]; omega
  obtain ⟨hpc, hhalted, hcause, hinfo⟩ := (advancedBy_advance s.halt 1 rfl ⟨rfl, rfl, rfl⟩).1 below
  exact ⟨_, rfl, hhalted, hpc, hcause, hinfo, .of_regs_eq (regs_advance s.halt 1) [],
    .of_mem_eq (mem_advance s.halt 1), fl_advance s.halt 1, out_advance s.halt 1, step_halted hhalted⟩

end Sys2Proof.Machine
end

section
/-! SUPPORT. Load immediate and print (44_load_print.md R145, R146): the effect of each on any state, and the two run one
after the other from memory. -/

namespace Sys2Proof.Machine

variable {s : State}

/-! ### LDI -/

theorem exec_ldi_regByte (a : RegIndex) (v : Byte) (s : State) :
    exec (.ldi (regByte a) v) s = .next ((s.writeReg a v).advance 3) :=
  congrArg Host.Outcome.next (withReg_regByte s a _)

/-- LDI leaves the immediate in its register, every byte value alike, and advances by 3. -/
theorem ldi_effect (a : RegIndex) (v : Byte) (s : State) : ∃ t, exec (.ldi (regByte a) v) s = .next t ∧
    t.readReg a = v ∧ SameRegsExcept [a] s t ∧ t.fl = s.fl ∧ SameMem s t ∧ t.out = s.out ∧ AdvancedBy 3 s t :=
  exec_writeReg_advance_effect (P := (· = v)) (exec_ldi_regByte a v s) rfl

theorem step_ldi {a : RegIndex} {v : Byte} (hr : s.runState = .running) (hp : s.pc.toNat ≤ 253)
    (hop : s.loadByte s.pc = 0x82#8) (ha : s.mem.read (s.pc.toNat + 1) = regByte a)
    (hv : s.mem.read (s.pc.toNat + 2) = v) : step s = exec (.ldi (regByte a) v) s :=
  step_decoded hr hp (by rw [hop, ha, hv]; rfl)

/-- Settles O28: `ldi_effect`; the immediate is no register operand, so only the register byte is checked. -/
theorem ldiLoadsTheImmediate : Obligations.LdiLoadsTheImmediate :=
  ⟨fun _ _ => rfl, ldi_effect, fun _ => raisesOnBadRegister_of_exec fun _ _ => rfl⟩

/-! ### PRN -/

theorem exec_prn_regByte (a : RegIndex) (s : State) :
    exec (.prn (regByte a)) s = .next ((s.emit (.print (s.readReg a))).advance 2) :=
  congrArg Host.Outcome.next (withReg_regByte s a _)

/-- PRN emits its one event whether or not the advance faults, and changes nothing else. -/
theorem prn_effect (a : RegIndex) (s : State) : ∃ t, exec (.prn (regByte a)) s = .next t ∧
    t.out = s.out ++ [.print (s.readReg a)] ∧
    SameRegsExcept [] s t ∧ t.fl = s.fl ∧ SameMem s t ∧ AdvancedBy 2 s t :=
  ⟨_, exec_prn_regByte a s, out_advance _ 2, .of_regs_eq (regs_advance _ 2) [], fl_advance _ 2,
    .of_mem_eq (mem_advance _ 2), advancedBy_advance s 2 rfl ⟨rfl, rfl, rfl⟩⟩

theorem step_prn {a : RegIndex} (hr : s.runState = .running) (hp : s.pc.toNat ≤ 253)
    (hop : s.loadByte s.pc = 0x47#8) (ha : s.mem.read (s.pc.toNat + 1) = regByte a) :
    step s = exec (.prn (regByte a)) s :=
  step_decoded hr hp (by rw [hop, ha]; rfl)

/-! ### LDI then PRN -/

/-- LDI keeps memory and the run state and advances to the PRN, which the second Step therefore fetches; it prints the
register that LDI has loaded. -/
theorem ldiThenPrnOutputsTheDecimalString : LdiThenPrnOutputsTheDecimalString := by
  intro s r v hr hp hldi ha hv hprn hb
  obtain ⟨t, ldi, loaded, others, -, sameMem, sameOut, advanced⟩ := ldi_effect r v s
  obtain ⟨hpc, hrun, -, -⟩ := advanced.1 (by omega)
  have opcode : t.loadByte t.pc = 0x47#8 := by rw [State.loadByte, hpc, sameMem, hprn]
  have operand : t.mem.read (t.pc.toNat + 1) = regByte r := by rw [hpc, sameMem, hb]
  obtain ⟨u, prn, printed, kept, -, -, advanced'⟩ := prn_effect r t
  obtain ⟨hpc', -⟩ := advanced'.1 (by omega)
  have line : u.out.map OutEvent.line = s.out.map OutEvent.line ++ [toString v.toNat] := by
    rw [printed, loaded, sameOut, List.map_append]; rfl
  exact ⟨t, u, (step_ldi hr (by omega) hldi ha hv).trans ldi,
    (step_prn (hrun.trans hr) (by omega) opcode operand).trans prn, line,
    (kept r List.not_mem_nil).trans loaded, fun i hi => (kept i List.not_mem_nil).trans (others i hi), by omega⟩

/-- Settles O29: `prn_effect`, the sink's line of a Print event, and the two Steps above. -/
theorem prnPrintsTheRegister : Obligations.PrnPrintsTheRegister := by
  refine ⟨fun _ => rfl, fun a s => ?_, raisesOnBadRegister_of_exec fun _ _ => rfl, ldiThenPrnOutputsTheDecimalString⟩
  obtain ⟨t, prn, printed, frame⟩ := prn_effect a s
  exact ⟨t, prn, printed, rfl, frame⟩

end Sys2Proof.Machine
end

section
/-! SUPPORT. Faults along one Step: a fault raised by anything but an advance changes nothing else (60_exceptions.md R153,
R159), and the fault that a Step records is the first in the order of detection (R158). -/

namespace Sys2Proof.Machine

variable {s t : State}

/-! ### A faulting Step keeps `pc` (R159) -/

/-- If `t` is FAULTED, it has the `pc` of `s`, and all else of `s` too unless an address fault is recorded. -/
def PreciseFault (s t : State) : Prop :=
  t.runState = .faulted → t.pc = s.pc ∧ (t.faultCause ≠ .address → RaisedOnly t.faultCause t.faultInfo s t)

theorem preciseFault_raise (s : State) (c : FaultCause) (n : Nat) : PreciseFault s (s.raise c n) :=
  fun _ => ⟨rfl, fun _ => raisedOnly_raise c n s⟩

theorem preciseFault_of_not_faulted (h : t.runState ≠ .faulted) : PreciseFault s t := fun hf => absurd hf h

/-- What was written before an advance stands when it faults, but its fault is an address fault and keeps `pc`. -/
theorem preciseFault_advance (hpc : t.pc = s.pc) (hr : t.runState ≠ .faulted) (k : Nat) :
    PreciseFault s (t.advance k) := by
  rcases advance_cases t k with ⟨-, e⟩ | ⟨-, e⟩ <;> rw [e]
  · exact preciseFault_of_not_faulted hr
  · exact fun _ => ⟨hpc, fun hc => absurd rfl hc⟩

theorem exec_preciseFault {i : Instr} (hr : s.runState = .running) (h : exec i s = .next t) : PreciseFault s t := by
  apply exec_property h
  case badRegister => exact fun b _ => preciseFault_raise s _ _
  case divideByZero => exact fun _ => preciseFault_raise s _ _
  case ret | call | jump =>
    intros
    exact preciseFault_of_not_faulted (by simp [hr])
  all_goals
    intros
    exact preciseFault_advance (by simp) (by simp [hr]) _

/-- The prefetch fault is a raise, the skip an advance, and an instruction does what `exec_preciseFault` says. -/
theorem step_preciseFault (h : step s = .next t) : PreciseFault s t := by
  obtain ⟨hr, ⟨-, rfl⟩ | ⟨-, -, rfl⟩ | ⟨-, i, -, hi⟩⟩ := step_next h
  · exact preciseFault_raise s _ _
  · exact preciseFault_advance (pc_emit s _) (by simp [hr]) _
  · exact exec_preciseFault hr hi

/-- Settles O18: `step_preciseFault`, and with `pc` at 254 and up the address fault is the prefetch's, a raise alone. -/
theorem faultingStepIsPrecise : Obligations.FaultingStepIsPrecise := by
  intro s t h hf
  obtain ⟨hpc, raised⟩ := step_preciseFault h hf
  refine ⟨hpc, fun hc => hc.elim raised fun hp => ?_⟩
  cases h.symm.trans (step_prefetch_past (step_next h).1 hp)
  exact raisedOnly_raise .address 256 s

/-! ### The first register operand above 7 (R153) -/

/-- The one register operand, when it is above 7, is the first such. -/
theorem RaisesOnBadRegister.raises_find {mk : Byte → Instr} (h : RaisesOnBadRegister mk) {a b : Byte}
    (hb : ([a].find? fun x => 7 < x.toNat) = some b) (s : State) :
    ∃ t, exec (mk a) s = .next t ∧ RaisedOnly .registerIndex b.toNat s t := by
  obtain ⟨ha, rfl⟩ : 7 < a.toNat ∧ a = b := by simpa using hb
  exact h a s ha

/-- The second register operand is the first above 7 only when the first is not. -/
theorem RaisesOnBadRegisters.raises_find {mk : Byte → Byte → Instr} (h : RaisesOnBadRegisters mk) {a a' b : Byte}
    (hb : ([a, a'].find? fun x => 7 < x.toNat) = some b) (s : State) :
    ∃ t, exec (mk a a') s = .next t ∧ RaisedOnly .registerIndex b.toNat s t := by
  obtain ⟨first, second⟩ := h
  by_cases ha : 7 < a.toNat
  · rw [List.find?_cons_of_pos (by simpa using ha)] at hb
    cases hb
    exact first a a' s ha
  · rw [List.find?_cons_of_neg (by simpa using ha)] at hb
    obtain ⟨ha', rfl⟩ : 7 < a'.toNat ∧ a' = b := by simpa using hb
    exact second a a' s (by omega) ha'

/-- Settles O20: HLT and RET have no register operand, and the others check one or two before anything else. -/
theorem registerOperandAboveSevenRaises : Obligations.RegisterOperandAboveSevenRaises := by
  intro i b s hb
  cases i
  case hlt | ret => cases hb
  case ldi a v =>
    exact RaisesOnBadRegister.raises_find (mk := (.ldi · v)) (raisesOnBadRegister_of_exec fun _ _ => rfl) hb s
  case psh | pop | prn | call | jmp | jeq | jne | inc | dec =>
    exact RaisesOnBadRegister.raises_find (raisesOnBadRegister_of_exec fun _ _ => rfl) hb s
  all_goals exact RaisesOnBadRegisters.raises_find (raisesOnBadRegisters_of_exec fun _ _ _ => rfl) hb s

/-! ### What a state records -/

/-- `t` records the fault `f`, or none when `f` has no cause: its fault registers hold `f`, and it is FAULTED exactly when
there is a cause. -/
def Records (f : FaultCause × Nat) (t : State) : Prop :=
  (t.faultCause, t.faultInfo) = f ∧ (t.runState = .faulted ↔ f.1 ≠ .none)

/-- No fault is recorded. -/
def State.Clear (s : State) : Prop := Records (.none, 0) s

theorem State.Clear.of_sameRun (h : s.Clear) (same : SameRun s t) : t.Clear := by
  obtain ⟨hrun, hcause, hinfo⟩ := same
  rwa [State.Clear, Records, hrun, hcause, hinfo]

theorem State.Clear.halt (h : s.Clear) : s.halt.Clear := ⟨h.1, by simp⟩

theorem RaisedOnly.records {c : FaultCause} {n : Nat} (h : RaisedOnly c n s t) (hc : c ≠ .none) : Records (c, n) t := by
  obtain ⟨hrun, rfl, rfl, -⟩ := h
  exact ⟨rfl, iff_of_true hrun hc⟩

/-- What `Advance(k)` records: the sum, when it is past the top of memory. -/
def State.advanceFault (s : State) (k : Nat) : FaultCause × Nat :=
  if 255 < s.pc.toNat + k then (.address, s.pc.toNat + k) else (.none, 0)

theorem AdvancedBy.records {k : Nat} (h : AdvancedBy k s t) (clear : s.Clear) : Records (s.advanceFault k) t := by
  obtain ⟨inside, past⟩ := h
  unfold State.advanceFault
  split
  · next hk =>
    obtain ⟨-, hrun, hcause, hinfo⟩ := past hk
    exact ⟨by rw [hcause, hinfo], iff_of_true hrun nofun⟩
  · next hk => exact clear.of_sameRun (inside (by omega)).2

/-- What an advance records depends on `pc` alone, whatever an instruction has written before it. -/
theorem advance_records (clear : s.Clear) {k : Nat} (same : t.pc = s.pc ∧ SameRun s t) :
    Records (s.advanceFault k) (t.advance k) :=
  (advancedBy_advance s k same.1 same.2).records clear

/-! ### What an instruction records once its register operands are checked (R158) -/

/-- The end of the order of detection: a zero divisor, then an advance past the top of memory. -/
def State.execFault (s : State) (i : Instr) : FaultCause × Nat :=
  if s.zeroDivisor i then (.divideByZero, s.pc.toNat)
  else if 255 < s.pc.toNat + 1 + i.opcode.toNat / 64 && !setsPc i.opcode then
    (.address, s.pc.toNat + 1 + i.opcode.toNat / 64)
  else (.none, 0)

/-- Bit 4 of the opcode byte marks the five transfers of control (40_instruction_cycle.md R86). -/
theorem setsPc_opcode (i : Instr) : setsPc i.opcode = Laws.EncodedShape.isTransfer i := by
  cases i <;> simp [setsPc, Instr.opcode, Laws.EncodedShape.isTransfer]

/-- An instruction that does not set `pc` advances past its opcode and operand bytes. -/
theorem execFault_of_advance {i : Instr} (hz : s.zeroDivisor i = false) (hc : Laws.EncodedShape.isTransfer i = false) :
    s.execFault i = s.advanceFault (1 + i.operands.length) := by
  simp [State.execFault, State.advanceFault, hz, setsPc_opcode, hc, ← operandCount_opcode, operandCount_eq,
    Nat.add_assoc]

theorem execFault_of_transfer {i : Instr} (hz : s.zeroDivisor i = false) (hc : Laws.EncodedShape.isTransfer i = true) :
    s.execFault i = (.none, 0) := by
  simp [State.execFault, hz, setsPc_opcode, hc]

theorem zeroDivisor_div (s : State) (a : Byte) (b : RegIndex) :
    s.zeroDivisor (.div a (regByte b)) = (s.readReg b == 0#8) := by
  simp [State.zeroDivisor]

/-- An instruction body behind the check of an operand that names a register. -/
theorem withReg_records {f : FaultCause × Nat} {b : Byte} {rest : RegIndex → State} (hb : b.toNat ≤ 7)
    (good : ∀ a, b = regByte a → Records f (rest a)) : Records f (withReg b s rest) := by
  rcases withReg_cases s b rest with ⟨a, ha, e⟩ | ⟨hb', -⟩
  · exact e ▸ good a ha
  · omega

section Clear
variable (clear : s.Clear)
include clear

/-- Every ALU operation but DIV ends in the advance. -/
theorem aluRun_records {id : Byte} (known : id ∈ aluTable.map AluRow.id) (notDiv : id ≠ 0xA3#8) (a : RegIndex)
    (va vb : Byte) (k : Nat) : Records (s.advanceFault k) (aluRun id a va vb k s) := by
  apply aluRun_property a va vb k known
  case value => exact fun v => advance_records clear ⟨rfl, rfl, rfl, rfl⟩
  case flags => exact fun _ => advance_records clear ⟨rfl, rfl, rfl, rfl⟩
  case zero => exact fun e => absurd e notDiv

theorem aluOneReg_records {id opa : Byte} (known : id ∈ aluTable.map AluRow.id) (notDiv : id ≠ 0xA3#8)
    (ha : opa.toNat ≤ 7) : Records (s.advanceFault 2) (aluOneReg id opa s) :=
  withReg_records ha fun a _ => aluRun_records clear known notDiv a _ _ 2

theorem aluTwoReg_records {id opa opb : Byte} (known : id ∈ aluTable.map AluRow.id) (notDiv : id ≠ 0xA3#8)
    (ha : opa.toNat ≤ 7) (hb : opb.toNat ≤ 7) : Records (s.advanceFault 3) (aluTwoReg id opa opb s) :=
  withReg_records ha fun a _ => withReg_records hb fun _ _ => aluRun_records clear known notDiv a _ _ 3

/-- DIV finds the zero divisor before it advances. -/
theorem aluRun_div_records (a b : RegIndex) :
    Records (s.execFault (.div (regByte a) (regByte b))) (aluRun 0xA3#8 a (s.readReg a) (s.readReg b) 3 s) := by
  by_cases hb : s.readReg b = 0#8
  · have hz : s.zeroDivisor (.div (regByte a) (regByte b)) = true := by simp [zeroDivisor_div, hb]
    rw [State.execFault, if_pos hz, hb, aluRun_of_zeroDivisor (alu_div_zero _)]
    exact (raisedOnly_raise .divideByZero s.pc.toNat s).records nofun
  · rw [execFault_of_advance (by simp [zeroDivisor_div, hb]) rfl, aluRun_of_value (alu_div_of_ne_zero _ hb)]
    exact advance_records clear ⟨rfl, rfl, rfl, rfl⟩

/-- A jump inside memory records no fault, taken or not: its two bytes end below the top. -/
theorem jumpIf_records (hp : s.pc.toNat ≤ 253) (taken : Bool) {opa : Byte} (ha : opa.toNat ≤ 7) :
    Records (.none, 0) (jumpIf taken opa s) := by
  refine withReg_records ha fun a _ => ?_
  cases taken
  · obtain ⟨-, same⟩ := (advancedBy_advance s 2 rfl ⟨rfl, rfl, rfl⟩).1 (by omega)
    exact clear.of_sameRun same
  · exact clear.of_sameRun ⟨rfl, rfl, rfl⟩

/-- An instruction inside memory whose register operands are all at most 7. -/
theorem exec_records {i : Instr} (hp : s.pc.toNat ≤ 253) (ok : ∀ b ∈ i.regOperands, b.toNat ≤ 7)
    (h : exec i s = .next t) : Records (s.execFault i) t := by
  cases i <;> cases h
  case hlt =>
    rw [execFault_of_advance rfl rfl]
    exact advance_records clear.halt ⟨rfl, rfl, rfl, rfl⟩
  case ret =>
    rw [execFault_of_transfer rfl rfl]
    exact clear.of_sameRun ⟨rfl, rfl, rfl⟩
  case call a =>
    rw [execFault_of_transfer rfl rfl]
    exact withReg_records (ok a (.head _)) fun _ _ => clear.of_sameRun ⟨rfl, rfl, rfl⟩
  case jmp a | jeq a | jne a =>
    rw [execFault_of_transfer rfl rfl]
    exact jumpIf_records clear hp _ (ok a (.head _))
  case psh a | pop a | prn a | ldi a _ =>
    rw [execFault_of_advance rfl rfl]
    exact withReg_records (ok a (.head _)) fun _ _ => advance_records clear ⟨rfl, rfl, rfl, rfl⟩
  case inc a | dec a =>
    rw [execFault_of_advance rfl rfl]
    exact aluOneReg_records clear (by decide) (by decide) (ok a (.head _))
  case div a b =>
    refine withReg_records (ok a (.head _)) fun x hx => withReg_records (ok b (.tail _ (.head _))) fun y hy => ?_
    rw [hx, hy]
    exact aluRun_div_records clear x y
  case add a b | sub a b | mul a b | cmp a b | and a b | or a b | xor a b | shl a b =>
    rw [execFault_of_advance rfl rfl]
    exact aluTwoReg_records clear (by decide) (by decide) (ok a (.head _)) (ok b (.tail _ (.head _)))

end Clear

/-! ### The order of detection -/

theorem firstFault_prefetch (hp : 254 ≤ s.pc.toNat) : s.firstFault = (.address, 256) := if_pos hp

theorem firstFault_unmapped (hp : s.pc.toNat ≤ 253) (hu : s.loadByte s.pc ∉ mappedOpcodes) :
    s.firstFault = s.advanceFault (1 + (s.loadByte s.pc).toNat / 64) := by
  simp only [State.firstFault, State.advanceFault, if_neg (show ¬ 254 ≤ s.pc.toNat by omega),
    decodeBytes_none_iff.mpr hu, Nat.add_assoc]

section Decoded
variable {i : Instr} (hp : s.pc.toNat ≤ 253)
  (hd : decodeBytes (s.loadByte s.pc) (s.mem.read (s.pc.toNat + 1)) (s.mem.read (s.pc.toNat + 2)) = some i)
include hp hd

theorem firstFault_badRegister {b : Byte} (hb : (i.regOperands.find? fun x => 7 < x.toNat) = some b) :
    s.firstFault = (.registerIndex, b.toNat) := by
  simp only [State.firstFault, if_neg (show ¬ 254 ≤ s.pc.toNat by omega), hd, hb]

theorem firstFault_goodRegisters (hb : (i.regOperands.find? fun x => 7 < x.toNat) = none) :
    s.firstFault = s.execFault i := by
  simp only [State.firstFault, if_neg (show ¬ 254 ≤ s.pc.toNat by omega), hd, hb, State.execFault,
    (decodeBytes_some hd).1]

end Decoded

/-- The fault that a Step of a RUNNING state records, by what the step does: each case is a line of `State.firstFault`. -/
theorem step_records (clear : s.Clear) (h : step s = .next t) : Records s.firstFault t := by
  obtain ⟨-, ⟨hp, rfl⟩ | ⟨hp, hu, rfl⟩ | ⟨hp, i, hd, hi⟩⟩ := step_next h
  · rw [firstFault_prefetch hp]
    exact (raisedOnly_raise .address 256 s).records nofun
  · rw [firstFault_unmapped hp hu]
    exact (advancedBy_skipUnmapped _ s).records clear
  · cases hb : i.regOperands.find? fun x => 7 < x.toNat with
    | some b =>
      obtain ⟨t', ht', raised⟩ := registerOperandAboveSevenRaises i b s hb
      cases hi.symm.trans ht'
      rw [firstFault_badRegister hp hd hb]
      exact raised.records nofun
    | none =>
      rw [firstFault_goodRegisters hp hd hb]
      exact exec_records clear hp (by simpa using hb) hi

/-- Settles O19: the Step of a RUNNING state answers (`step_answers_of_running`), and `step_records` says what it
records. -/
theorem faultsAreDetectedInOrder : Obligations.FaultsAreDetectedInOrder := by
  intro s hr hcause hinfo
  obtain ⟨t, ht⟩ := step_answers_of_running hr
  have clear : s.Clear := ⟨by rw [hcause, hinfo], by simp [hr]⟩
  exact ⟨t, ht, step_records clear ht⟩

end Sys2Proof.Machine
end

section
/-! SUPPORT. The host's inputs (70_reset_and_hazards.md R180 to R184): what LOAD answers and what it leaves, and the
invariant along a RUN. -/

namespace Sys2Proof.Machine

variable {bytes : List Byte} {s t : State}

/-! ### LOAD -/

/-- LOAD of an image that fits in memory touches memory alone (R182). -/
theorem hostLoad_fits (h : bytes.length ≤ 256) (s : State) :
    hostLoad bytes s = .next { s with mem := s.mem.place 0 bytes } := if_pos h

theorem hostLoad_tooLong (h : 256 < bytes.length) (s : State) : hostLoad bytes s = .refused .imageTooLong :=
  if_neg (Nat.not_le_of_gt h)

/-- What LOAD answers, when it is not refused. -/
theorem hostLoad_next (h : hostLoad bytes s = .next t) : t = { s with mem := s.mem.place 0 bytes } := by
  by_cases hlen : bytes.length ≤ 256
  · rw [hostLoad_fits hlen] at h
    cases h
    rfl
  · rw [hostLoad_tooLong (Nat.lt_of_not_le hlen)] at h
    cases h

/-- Settles O4: the image's bytes and the bytes after it by `Memory.read_place` from address 0; LOAD writes no other
field. -/
theorem loadWritesTheImageAndNothingElse : Obligations.LoadWritesTheImageAndNothingElse := by
  intro bytes s hlen
  obtain ⟨image, others⟩ := Memory.read_place bytes s.mem 0 (by omega)
  refine ⟨_, hostLoad_fits hlen s, fun i hi => ?_, fun addr ha => others addr (.inr (by omega)),
    fun _ _ => rfl, rfl, rfl, rfl, rfl, rfl, rfl⟩
  simpa using image i hi

/-- Settles O5: `hostLoad_tooLong`, and the empty image leaves every byte as RESET gives it. -/
theorem longImageIsRefusedAndEmptyOneIsLegal : Obligations.LongImageIsRefusedAndEmptyOneIsLegal := by
  refine ⟨fun _ s hlen => hostLoad_tooLong hlen s, ?_⟩
  obtain ⟨t, ht, -, others, -⟩ := loadWritesTheImageAndNothingElse [] State.reset (Nat.zero_le _)
  exact ⟨t, ht, fun addr => (others addr (Nat.zero_le _)).trans (Memory.read_nil addr)⟩

/-! ### The invariant from LOAD on -/

/-- The bytes LOAD writes keep memory canonical, zeros among them; the other clauses do not read memory. -/
theorem hostLoad_keeps_inv (h : s.Inv) (hload : hostLoad bytes s = .next t) : t.Inv := by
  cases hostLoad_next hload
  exact { h with mem_wf := Memory.place_wf h.mem_wf 0 bytes }

/-- What every Step keeps holds all along a RUN. -/
theorem hostRun_keeps_inv (n : Nat) (h : s.Inv) : (hostRun n s).Inv := by
  induction n generalizing s with
  | zero => exact h
  | succ n ih =>
    by_cases hr : s.runState = .running
    · obtain ⟨t, ht⟩ := step_answers_of_running hr
      rw [hostRun_succ ht]
      exact ih (step_keeps_inv h ht)
    · rw [hostRun_ended hr]
      exact h

/-- Settles O6: RESET meets the invariant, LOAD keeps it, and so does a RUN of any length. -/
theorem everyLoadedRunMeetsTheInvariant : Obligations.EveryLoadedRunMeetsTheInvariant :=
  fun _ _ n hload => hostRun_keeps_inv n (hostLoad_keeps_inv resetMeetsTheInvariant hload)

end Sys2Proof.Machine
end
